-- ==== Sys2Proof/Word.lean ====
section
/-!
DEFINITION. The bit-vector types of the VM CORE (spec 00_scope rules R6, R8; 30_encoding rule R81).
-/

namespace Sys2Proof

/-- A register, a data cell or an immediate: `XLEN` = 64 bits, read as two's complement (rules R6, R37). -/
abbrev Word := BitVec 64

/-- An instruction word: `ILEN` = 96 bits (rule R81). -/
abbrev InstrWord := BitVec 96

/-- A register-identifier field: `REGID_W` = 4 bits (rules R6, R22). -/
abbrev RegField := BitVec 4

/-- The comparison-operator field `cop`: 4 bits (rules R82, R86). -/
abbrev CopField := BitVec 4

/-- The opcode field: 8 bits (rule R82). -/
abbrev OpcodeField := BitVec 8

/-- `fault.info`: `XLEN` + 1 = 65 bits, signed (rule R32). -/
abbrev InfoWord := BitVec 65

end Sys2Proof
end

