-- ==== Sys2Proof/Config.lean ====
section
/-!
DEFINITION. The parameters of spec 00_scope rule R6, each at the value this hardware takes.
`PROG_LEN` is no parameter here: it is the length of the Program a state holds (rule R51).
`XLEN` = 64 is also the width written into the types of `Sys2Proof/Word.lean` (log entry 8).
-/

namespace Sys2Proof.Config

/-- `NGPR`: the number of general-purpose registers. -/
def nGpr : Nat := 8

/-- `NREG`: the number of register identifiers, the general ones with IP and SP. -/
def nReg : Nat := 10

/-- `MEM_CAP`: the number of data-memory cells. -/
def memCap : Nat := 1024

/-- `XLEN`: the width of a register, of a cell and of an immediate (decision D1). -/
def xlen : Nat := 64

/-- `REGID_W`: the width of a register-identifier field (decision D8). -/
def regIdW : Nat := 4

/-- `ILEN` = 32 + `XLEN`: the width of an instruction word (decision D8). -/
def ilen : Nat := 32 + xlen

/-- `VMIN` = -2^(`XLEN`-1): the least value a register or cell holds. -/
def vMin : Int := -(2 ^ (xlen - 1))

/-- `VMAX` = 2^(`XLEN`-1) - 1: the greatest value a register or cell holds. -/
def vMax : Int := 2 ^ (xlen - 1) - 1

/-- What `DIV_INEXACT` may be: what DIV does when the divisor does not divide the dividend (rules R6, R155). -/
inductive DivInexact where
  /-- raise InexactDivision -/
  | fault
  /-- round the quotient toward zero -/
  | trunc
  /-- round the quotient toward minus infinity -/
  | floor
  deriving DecidableEq, Repr

/-- `DIV_INEXACT`: this hardware raises InexactDivision (decision D3). -/
def divInexact : DivInexact := .fault

/-- What `OVERFLOW` may be: "no other value is offered, because the document excludes wrap-around" (rule R6). -/
inductive Overflow where
  /-- raise ArithmeticOverflow -/
  | fault
  deriving DecidableEq, Repr

/-- `OVERFLOW`: a register write of a value outside `Val` raises ArithmeticOverflow (decision D2). -/
def overflow : Overflow := .fault

/-- `Val`: the integers a register or a cell can hold (rules R7, R37). -/
abbrev InVal (v : Int) : Prop := vMin ≤ v ∧ v ≤ vMax

end Sys2Proof.Config
end

