-- ==== Sys2Proof/Syntax.lean ====
section
/-!
DEFINITION. The instruction as the record of spec 30_encoding rule R80: one constructor per row of
spec/opcode_table.json, operands in the record's order. The fields of the word are in `Sys2Proof/Decode.lean`.
-/

namespace Sys2Proof

/-- The ten register identifiers, a "fixed, closed set" (rules R21, R22). -/
inductive RegId where
  | r0 | r1 | r2 | r3 | r4 | r5 | r6 | r7
  /-- the instruction pointer, the program counter (rule R25) -/
  | ip
  /-- the stack pointer, reserved: no instruction uses it implicitly (rule R29) -/
  | sp
  deriving DecidableEq, Repr

/-- The six comparison operators of CMP, in the order of rule R86. -/
inductive CmpOp where
  | lt | gt | le | ge | eq | ne
  deriving DecidableEq, Repr

/-- The closed set of opcodes, in the order of rule R87. -/
inductive Opcode where
  | add | sub | mul | div | inc | dec | cmp | const | load | store | jmp | jz | halt
  deriving DecidableEq, Repr

/-- An instruction: "an immutable record of an opcode plus a fixed-arity operand list" (rule R80). -/
inductive Instr where
  /-- ADD a, b, dst (rule R152) -/
  | add (a b dst : RegId)
  /-- SUB a, b, dst (rule R153) -/
  | sub (a b dst : RegId)
  /-- MUL a, b, dst (rule R154) -/
  | mul (a b dst : RegId)
  /-- DIV a, b, dst (rule R156) -/
  | div (a b dst : RegId)
  /-- INC a (rule R158) -/
  | inc (a : RegId)
  /-- DEC a (rule R159) -/
  | dec (a : RegId)
  /-- CMP op, a, b, dst (rule R171) -/
  | cmp (op : CmpOp) (a b dst : RegId)
  /-- CONST value, dst (rule R173) -/
  | const (value : Int) (dst : RegId)
  /-- LOAD rs, rd, offset (rule R182) -/
  | load (rs rd : RegId) (offset : Int)
  /-- STORE rs, rd, offset (rule R183) -/
  | store (rs rd : RegId) (offset : Int)
  /-- JMP reg, offset (rule R191) -/
  | jmp (reg : RegId) (offset : Int)
  /-- JZ reg_target, reg_test (rule R192) -/
  | jz (target test : RegId)
  /-- HALT (rule R201) -/
  | halt
  deriving DecidableEq, Repr

end Sys2Proof
end

