-- ==== Sys2Proof/WellFormed.lean ====
section
/-!
DEFINITION. Which instruction records this hardware can be given: spec 30_encoding rules R84, R92.
Register identifiers and operators are legal by their types (rules R22, R86), so the one check left is the literal's.
-/

namespace Sys2Proof

/-- The integer literal an instruction carries, 0 for one that carries none (rule R83, column `imm`). -/
def Instr.literal : Instr → Int
  | .add _ _ _ => 0
  | .sub _ _ _ => 0
  | .mul _ _ _ => 0
  | .div _ _ _ => 0
  | .inc _ => 0
  | .dec _ => 0
  | .cmp _ _ _ _ => 0
  | .const value _ => value
  | .load _ _ offset => offset
  | .store _ _ offset => offset
  | .jmp _ offset => offset
  | .jz _ _ => 0
  | .halt => 0

/-- A record has an encoding when its literal lies in `Val` (rules R84, R92; entry U18). -/
abbrev Instr.WellFormed (i : Instr) : Prop := Config.InVal i.literal

end Sys2Proof
end

