-- ==== Sys2Proof/Decode.lean ====
section
/-!
DEFINITION. Decode and encode: spec 30_encoding rules R81 to R92, with the check order of rule R128.
-/

namespace Sys2Proof

/-! ### The numbers of the encoding -/

/-- The number of a register identifier (rule R22). -/
def RegId.num : RegId → RegField
  | .r0 => 0
  | .r1 => 1
  | .r2 => 2
  | .r3 => 3
  | .r4 => 4
  | .r5 => 5
  | .r6 => 6
  | .r7 => 7
  | .ip => 8
  | .sp => 9

/-- The register a field names; none for 10 to 15, which name no register (rules R22, R85). -/
def RegId.ofField? (f : RegField) : Option RegId :=
  match f.toNat with
  | 0 => some .r0
  | 1 => some .r1
  | 2 => some .r2
  | 3 => some .r3
  | 4 => some .r4
  | 5 => some .r5
  | 6 => some .r6
  | 7 => some .r7
  | 8 => some .ip
  | 9 => some .sp
  | _ => none

/-- The code of a comparison operator (rule R86). -/
def CmpOp.code : CmpOp → CopField
  | .lt => 0
  | .gt => 1
  | .le => 2
  | .ge => 3
  | .eq => 4
  | .ne => 5

/-- The operator a `cop` field selects; none for 6 to 15 (rule R86). -/
def CmpOp.ofField? (c : CopField) : Option CmpOp :=
  match c.toNat with
  | 0 => some .lt
  | 1 => some .gt
  | 2 => some .le
  | 3 => some .ge
  | 4 => some .eq
  | 5 => some .ne
  | _ => none

/-- The number of an opcode (rule R87). -/
def Opcode.code : Opcode → OpcodeField
  | .add => 0x01
  | .sub => 0x02
  | .mul => 0x03
  | .div => 0x04
  | .inc => 0x05
  | .dec => 0x06
  | .cmp => 0x07
  | .const => 0x08
  | .load => 0x09
  | .store => 0x0A
  | .jmp => 0x0B
  | .jz => 0x0C
  | .halt => 0x0D

/-- The opcode a byte selects; none for 0x00 and 0x0E to 0xFF (rules R87, R88). -/
def Opcode.ofField? (b : OpcodeField) : Option Opcode :=
  match b.toNat with
  | 1 => some .add
  | 2 => some .sub
  | 3 => some .mul
  | 4 => some .div
  | 5 => some .inc
  | 6 => some .dec
  | 7 => some .cmp
  | 8 => some .const
  | 9 => some .load
  | 10 => some .store
  | 11 => some .jmp
  | 12 => some .jz
  | 13 => some .halt
  | _ => none

/-- `uses(opcode)`: how many register fields the opcode uses (rule R91). -/
def Opcode.uses : Opcode → Nat
  | .add => 3
  | .sub => 3
  | .mul => 3
  | .div => 3
  | .inc => 1
  | .dec => 1
  | .cmp => 3
  | .const => 1
  | .load => 2
  | .store => 2
  | .jmp => 1
  | .jz => 2
  | .halt => 0

/-- The opcodes whose word carries a literal in `imm` (rule R83). -/
def Opcode.usesImm : Opcode → Bool
  | .add => false
  | .sub => false
  | .mul => false
  | .div => false
  | .inc => false
  | .dec => false
  | .cmp => false
  | .const => true
  | .load => true
  | .store => true
  | .jmp => true
  | .jz => false
  | .halt => false

/-- The opcode of a record. -/
def Instr.opcode : Instr → Opcode
  | .add _ _ _ => .add
  | .sub _ _ _ => .sub
  | .mul _ _ _ => .mul
  | .div _ _ _ => .div
  | .inc _ => .inc
  | .dec _ => .dec
  | .cmp _ _ _ _ => .cmp
  | .const _ _ => .const
  | .load _ _ _ => .load
  | .store _ _ _ => .store
  | .jmp _ _ => .jmp
  | .jz _ _ => .jz
  | .halt => .halt

/-! ### The fields of the word (rule R82) -/

/-- `w[95:88]`. -/
def InstrWord.opcode (w : InstrWord) : OpcodeField := w.extractLsb' 88 8
/-- `w[87:84]`, the first register operand. -/
def InstrWord.f1 (w : InstrWord) : RegField := w.extractLsb' 84 4
/-- `w[83:80]`, the second register operand. -/
def InstrWord.f2 (w : InstrWord) : RegField := w.extractLsb' 80 4
/-- `w[79:76]`, the third register operand. -/
def InstrWord.f3 (w : InstrWord) : RegField := w.extractLsb' 76 4
/-- `w[75:72]`, the comparison operator. -/
def InstrWord.cop (w : InstrWord) : CopField := w.extractLsb' 72 4
/-- `w[71:64]`, reserved: written as 0, ignored by the decoder (rule R89). -/
def InstrWord.rsv (w : InstrWord) : BitVec 8 := w.extractLsb' 64 8
/-- `w[63:0]`, the immediate. -/
def InstrWord.imm (w : InstrWord) : Word := w.extractLsb' 0 64
/-- `sext_64(w[63:0])`: the literal the immediate stands for (rule R84). -/
def InstrWord.literal (w : InstrWord) : Int := w.imm.toInt

/-! ### Decode -/

/-- The three decode faults of rule R91, each with its information value. -/
inductive DecodeFault where
  /-- an opcode outside the closed set (rule R88) -/
  | unsupportedInstruction (opcode : OpcodeField)
  /-- a used register field that holds 10 to 15 (rule R85) -/
  | unknownRegister (id : RegField)
  /-- a CMP whose `cop` is 6 to 15 (rule R86) -/
  | unsupportedOperator (cop : CopField)
  deriving DecidableEq, Repr

/-- What decoding answers: a record, or the decode fault raised. -/
inductive Decoded where
  | instr (i : Instr)
  | fault (f : DecodeFault)
  deriving DecidableEq, Repr

/-- Check one used register field before going on (rules R85, R128). -/
def needReg (f : RegField) (next : RegId → Decoded) : Decoded :=
  match RegId.ofField? f with
  | some r => next r
  | none => .fault (.unknownRegister f)

/-- Check the operator field of a CMP before going on (rules R86, R128). -/
def needOp (c : CopField) (next : CmpOp → Decoded) : Decoded :=
  match CmpOp.ofField? c with
  | some op => next op
  | none => .fault (.unsupportedOperator c)

/-- `decode(w)` of rule R91: the opcode, then the used register fields in the order f1, f2, f3, then CMP's operator. -/
def decode (w : InstrWord) : Decoded :=
  match Opcode.ofField? w.opcode with
  | none => .fault (.unsupportedInstruction w.opcode)
  | some .add => needReg w.f1 fun a => needReg w.f2 fun b => needReg w.f3 fun d => .instr (.add a b d)
  | some .sub => needReg w.f1 fun a => needReg w.f2 fun b => needReg w.f3 fun d => .instr (.sub a b d)
  | some .mul => needReg w.f1 fun a => needReg w.f2 fun b => needReg w.f3 fun d => .instr (.mul a b d)
  | some .div => needReg w.f1 fun a => needReg w.f2 fun b => needReg w.f3 fun d => .instr (.div a b d)
  | some .inc => needReg w.f1 fun a => .instr (.inc a)
  | some .dec => needReg w.f1 fun a => .instr (.dec a)
  | some .cmp => needReg w.f1 fun a => needReg w.f2 fun b => needReg w.f3 fun d => needOp w.cop fun op => .instr (.cmp op a b d)
  | some .const => needReg w.f1 fun d => .instr (.const w.literal d)
  | some .load => needReg w.f1 fun rs => needReg w.f2 fun rd => .instr (.load rs rd w.literal)
  | some .store => needReg w.f1 fun rs => needReg w.f2 fun rd => .instr (.store rs rd w.literal)
  | some .jmp => needReg w.f1 fun r => .instr (.jmp r w.literal)
  | some .jz => needReg w.f1 fun t => needReg w.f2 fun c => .instr (.jz t c)
  | some .halt => .instr .halt

/-! ### Encode -/

/-- A word laid out by rule R82, `rsv` zero. -/
def packWord (op : OpcodeField) (f1 f2 f3 : RegField) (cop : CopField) (imm : Word) : InstrWord :=
  op ++ f1 ++ f2 ++ f3 ++ cop ++ (0 : BitVec 8) ++ imm

/-- The 64-bit two's-complement pattern of a literal (rules R84, R92). -/
def literalField (v : Int) : Word := BitVec.ofInt 64 v

/-- `encode(record)` of rule R92: the canonical word, with every unused field 0. -/
def encode : Instr → InstrWord
  | .add a b dst => packWord Opcode.add.code a.num b.num dst.num 0 0
  | .sub a b dst => packWord Opcode.sub.code a.num b.num dst.num 0 0
  | .mul a b dst => packWord Opcode.mul.code a.num b.num dst.num 0 0
  | .div a b dst => packWord Opcode.div.code a.num b.num dst.num 0 0
  | .inc a => packWord Opcode.inc.code a.num 0 0 0 0
  | .dec a => packWord Opcode.dec.code a.num 0 0 0 0
  | .cmp op a b dst => packWord Opcode.cmp.code a.num b.num dst.num op.code 0
  | .const value dst => packWord Opcode.const.code dst.num 0 0 0 (literalField value)
  | .load rs rd offset => packWord Opcode.load.code rs.num rd.num 0 0 (literalField offset)
  | .store rs rd offset => packWord Opcode.store.code rs.num rd.num 0 0 (literalField offset)
  | .jmp reg offset => packWord Opcode.jmp.code reg.num 0 0 0 (literalField offset)
  | .jz target test => packWord Opcode.jz.code target.num test.num 0 0 0
  | .halt => packWord Opcode.halt.code 0 0 0 0 0

/-- The word of a record that has one; none for a record whose literal lies outside `Val`, which has no encoding (rules R84, R92). -/
def encode? (i : Instr) : Option InstrWord := if i.WellFormed then some (encode i) else none

/-- The Program of a list of records: refused at load when one of them has no encoding (entry U18). -/
def assemble : List Instr → Option (List InstrWord)
  | [] => some []
  | i :: rest =>
    match encode? i, assemble rest with
    | some w, some ws => some (w :: ws)
    | _, _ => none

/-- The word with every field its opcode does not use set to 0 (rules R83, R89). -/
def canonicalWord (op : Opcode) (w : InstrWord) : InstrWord :=
  packWord w.opcode (if 1 ≤ op.uses then w.f1 else 0) (if 2 ≤ op.uses then w.f2 else 0)
    (if 3 ≤ op.uses then w.f3 else 0) (if op = .cmp then w.cop else 0) (if op.usesImm then w.imm else 0)

/-! ### A program image kept as bytes outside the core (rule R52, decision D23) -/

/-- The 96-bit word of twelve bytes, most significant first. -/
def wordOfBytes (b0 b1 b2 b3 b4 b5 b6 b7 b8 b9 b10 b11 : BitVec 8) : InstrWord :=
  b0 ++ b1 ++ b2 ++ b3 ++ b4 ++ b5 ++ b6 ++ b7 ++ b8 ++ b9 ++ b10 ++ b11

/-- The words of a byte image, twelve bytes a word; none when bytes are left over. -/
def wordsOfImage : List (BitVec 8) → Option (List InstrWord)
  | [] => some []
  | b0 :: b1 :: b2 :: b3 :: b4 :: b5 :: b6 :: b7 :: b8 :: b9 :: b10 :: b11 :: rest =>
    match wordsOfImage rest with
    | some ws => some (wordOfBytes b0 b1 b2 b3 b4 b5 b6 b7 b8 b9 b10 b11 :: ws)
    | none => none
  | _ => none

/-- The twelve bytes of a word, most significant first. -/
def bytesOfWord (w : InstrWord) : List (BitVec 8) :=
  [88, 80, 72, 64, 56, 48, 40, 32, 24, 16, 8, 0].map fun k => w.extractLsb' k 8

/-! ### The host's question about one table row -/

/-- The 96-bit word whose low `nbits` bits are those of `w`, the bits above them zero. -/
def tableWord (nbits w : Nat) : InstrWord := BitVec.ofNat 96 (w % 2 ^ nbits)

/-- The instruction the decoder reads from a table row's word: the whole instruction is one 96-bit word (rule R81),
so the table's bit numbers are the word's. -/
def decodeTableWord (nbits w : Nat) : Option Instr :=
  match decode (tableWord nbits w) with
  | .instr i => some i
  | .fault _ => none

end Sys2Proof
end

