-- ==== Sys2Proof/Machine/State.lean ====
section
/-!
DEFINITION. The state of the VM CORE (spec 10_state rules R20 to R38), and the state after reset (rule R36).
-/

namespace Sys2Proof.Machine

/-- The register file: eight general registers, IP and SP, 64 bits each (rules R21, R25, R29, R37).
None is hardwired, and there are no others (rules R21, R33). -/
structure RegFile where
  r0 : Word
  r1 : Word
  r2 : Word
  r3 : Word
  r4 : Word
  r5 : Word
  r6 : Word
  r7 : Word
  /-- the instruction pointer: the index of the next instruction to fetch -/
  ip : Word
  /-- the stack pointer: no instruction uses it implicitly -/
  sp : Word
  deriving DecidableEq, Repr

/-- One listed cell of the data memory: its number and its content. The smallest unit the hardware addresses
is the 64-bit cell, so a cell is the unit of the list (rules R50, R52, R54; log entry 3). -/
abbrev MemCell := Nat × Word

/-- The data memory: the listed cells, by strictly rising number, none holding what an unlisted cell reads as. -/
abbrev Memory := List MemCell

/-- What a cell that nothing has written reads as: "all zero-initialized" (rules R36, R50, R54). -/
def Memory.unlisted : Word := 0

/-- The canonical form: numbers strictly rising, each below `MEM_CAP`, no cell listed with what an unlisted one reads as. -/
abbrev Memory.wf (m : Memory) : Prop :=
  m.Pairwise (fun c d => c.1 < d.1) ∧ ∀ c ∈ m, c.2 ≠ Memory.unlisted ∧ c.1 < Config.memCap

/-- The engine state (rule R31). -/
inductive EngineState where
  | running
  | halted
  | faulted
  deriving DecidableEq, Repr

/-- The fault kinds of rule R212; `none` is code 0, no fault raised. -/
inductive FaultKind where
  | none
  | unknownRegister
  | outOfBoundsAccess
  | divisionByZero
  | unsupportedOperator
  | unsupportedInstruction
  | programCounterOutOfRange
  | arithmeticOverflow
  | inexactDivision
  deriving DecidableEq, Repr

/-- The fault record (rule R32): the kind, its information value (65 bits, signed) and IP when it was raised. -/
structure FaultRecord where
  kind : FaultKind
  info : InfoWord
  ip : Word
  deriving DecidableEq, Repr

/-- The whole machine: the tuple of rule R20, and the Program the step reads.
The Program is a parameter of the step in the spec and stands here because the host's step takes a state only
(log entry 1); its length is `PROG_LEN`. No instruction changes it (rule R51). -/
structure State where
  regs : RegFile
  mem : Memory
  engine : EngineState
  fault : FaultRecord
  prog : List InstrWord
  deriving DecidableEq, Repr

/-- Why the machine itself stops: the cases in which the spec gives the step no meaning. The eight faults of the
VM CORE are not here: each is a next state, Faulted, with its record (rule R230). -/
inductive Fault where
  /-- Raised by a step of a Running engine when the Program in the state is longer than `VMAX` words: the host broke the
  bound of rules R51 and R141, and entry U17 of spec/93 gives no treatment. Safe: the model stops where the spec says nothing
  (log entry 2). -/
  | programTooLong
  deriving DecidableEq, Repr

/-- Why an instruction has no meaning in the model. -/
inductive Refusal where
  /-- Raised by an arm of `exec` whose instruction has no meaning yet; no arm answers it in this model. Safe: nothing is
  claimed of such an instruction. -/
  | notModelled (mnemonic : String)
  deriving DecidableEq, Repr

/-- The register file at reset: IP 0 (rule R36), R0 to R7 and SP 0 (rule R36, decision D7; log entry 4). -/
def RegFile.reset : RegFile :=
  { r0 := 0, r1 := 0, r2 := 0, r3 := 0, r4 := 0, r5 := 0, r6 := 0, r7 := 0, ip := 0, sp := 0 }

/-- The fault record while no fault has been raised (rules R32, R36, decision D15). -/
def FaultRecord.clear : FaultRecord := { kind := .none, info := 0, ip := 0 }

/-- The machine right after reset with no Program placed (rule R36; log entry 1). -/
def State.reset : State :=
  { regs := RegFile.reset, mem := [], engine := .running, fault := FaultRecord.clear, prog := [] }

end Sys2Proof.Machine
end

