-- ==== Sys2Proof/Machine/Ops.lean ====
section
/-!
DEFINITION. The named operations every instruction goes through: the register file, the data memory,
taking a fault, and reset (spec 00_scope rules R9 to R11, 10_state R23, 20_memory R56, 60_exceptions R230, R235, 70 R260).
-/

namespace Sys2Proof.Machine

/-! ### The register file (rule R23) -/

/-- The value a register identifier reads. -/
def RegFile.read (f : RegFile) : RegId → Word
  | .r0 => f.r0
  | .r1 => f.r1
  | .r2 => f.r2
  | .r3 => f.r3
  | .r4 => f.r4
  | .r5 => f.r5
  | .r6 => f.r6
  | .r7 => f.r7
  | .ip => f.ip
  | .sp => f.sp

/-- The register file with one register overwritten. -/
def RegFile.write (f : RegFile) (r : RegId) (v : Word) : RegFile :=
  match r with
  | .r0 => { f with r0 := v }
  | .r1 => { f with r1 := v }
  | .r2 => { f with r2 := v }
  | .r3 => { f with r3 := v }
  | .r4 => { f with r4 := v }
  | .r5 => { f with r5 := v }
  | .r6 => { f with r6 := v }
  | .r7 => { f with r7 := v }
  | .ip => { f with ip := v }
  | .sp => { f with sp := v }

/-- The 64-bit content of a register. -/
def State.reg (s : State) (r : RegId) : Word := s.regs.read r

/-- `x[i]`: the signed integer a register holds (rules R9, R37). -/
def State.val (s : State) (r : RegId) : Int := (s.reg r).toInt

/-- The state with one register's content replaced. -/
def State.setReg (s : State) (r : RegId) (v : Word) : State := { s with regs := s.regs.write r v }

/-! ### The data memory (rules R50, R56) -/

/-- The content of a cell. -/
def Memory.read : Memory → Nat → Word
  | [], _ => Memory.unlisted
  | c :: rest, a => if c.1 = a then c.2 else Memory.read rest a

/-- List a cell before the first one with a greater number. -/
def Memory.insert : Memory → Nat → Word → Memory
  | [], a, v => [(a, v)]
  | c :: rest, a, v => if a < c.1 then (a, v) :: c :: rest else c :: Memory.insert rest a v

/-- Replace the content of a cell, keeping the canonical form: a cell that holds what an unlisted one reads as is not listed. -/
def Memory.write (m : Memory) (a : Nat) (v : Word) : Memory :=
  let others : Memory := m.filter fun c => c.1 != a
  if v = Memory.unlisted then others else others.insert a v

/-- The bounds check on the exact integer address (rule R56). -/
abbrev InBounds (ea : Int) : Prop := 0 ≤ ea ∧ ea < Config.memCap

/-- The state with one cell's content replaced. -/
def State.setCell (s : State) (a : Nat) (v : Word) : State := { s with mem := s.mem.write a v }

/-! ### Taking a fault, and the only way back (rules R11, R230, R235, R260) -/

/-- What every operation answers. -/
abbrev Result := Host.Outcome State Fault Refusal

/-- `raise K(info)`: the record takes the kind, the information value and the IP register as it stands, the engine
becomes Faulted, and nothing else changes (rule R230). -/
def raise (kind : FaultKind) (info : Int) (s : State) : State :=
  { s with
    engine := .faulted
    fault := { kind := kind, info := BitVec.ofInt 65 info, ip := s.reg .ip } }

/-- The effect of asserting `rst`: every piece of state takes its reset value; the Program is not touched (rule R260).
There is no return from a fault; this is the only exit from Halted and Faulted (rule R235). -/
def assertRst (s : State) : State := { State.reset with prog := s.prog }

/-! ### The checked accesses the pseudocode uses (rules R9, R10) -/

/-- `x[i] <- v`: store `v` when it lies in `Val`, else raise ArithmeticOverflow (rules R9, R151, R220). -/
def writeReg (r : RegId) (v : Int) (s : State) : Result :=
  if Config.InVal v then .next (s.setReg r (BitVec.ofInt 64 v))
  else
    match Config.overflow with
    | .fault => .next (raise .arithmeticOverflow 0 s)

/-- `MemRead(addr, 1)`, its value given to what follows; OutOfBoundsAccess(addr) outside the memory (rules R10, R56). -/
def memRead (ea : Int) (next : Word → State → Result) (s : State) : Result :=
  if InBounds ea then next (s.mem.read ea.toNat) s else .next (raise .outOfBoundsAccess ea s)

/-- `MemWrite(addr, 1, v)`; OutOfBoundsAccess(addr) outside the memory (rules R10, R56). -/
def memWrite (ea : Int) (v : Word) (s : State) : Result :=
  if InBounds ea then .next (s.setCell ea.toNat v) else .next (raise .outOfBoundsAccess ea s)

/-- HALT's transition of the engine (rules R130, R201). -/
def haltEngine (s : State) : State := { s with engine := .halted }

end Sys2Proof.Machine
end

