-- ==== Sys2Proof/Machine/Operands.lean ====
section
/-!
DEFINITION. The operand forms: a register operand is `State.val` (rule R85), a literal is the record's own integer (rule R84),
and base plus literal is the one addressing mode (spec 43_load_store rules R180, R181; 44_control_flow rule R191).
-/

namespace Sys2Proof.Machine

/-- `ea = x[rs] + imm`, exact: the sum never wraps and never raises ArithmeticOverflow (rule R181). -/
def effectiveAddr (rs : RegId) (offset : Int) (s : State) : Int := s.val rs + offset

/-- `t = x[reg] + imm`, exact: the absolute target of JMP (rules R190, R191). -/
def jumpTarget (reg : RegId) (offset : Int) (s : State) : Int := s.val reg + offset

end Sys2Proof.Machine
end

