-- ==== Sys2Proof/Machine/Flags.lean ====
section
/-!
DEFINITION. The VM CORE has no flags and no condition codes (spec 10_state rule R30): what other machines keep in flags is
a register value here. This file holds the two conditions instructions compute: CMP's relation and JZ's zero test.
-/

namespace Sys2Proof.Machine

/-- `b2i(c)`: 1 when the condition holds, 0 when it does not (rule R12). -/
def b2i (c : Bool) : Int := if c then 1 else 0

/-- The relation an operator of CMP asks for, on signed integers, exactly (rules R86, R170). -/
def cmpHolds (op : CmpOp) (a b : Int) : Bool :=
  match op with
  | .lt => decide (a < b)
  | .gt => decide (a > b)
  | .le => decide (a ≤ b)
  | .ge => decide (a ≥ b)
  | .eq => decide (a = b)
  | .ne => decide (a ≠ b)

/-- JZ's test: exact equality with the integer 0 (rule R192). -/
def isZero (v : Int) : Bool := decide (v = 0)

end Sys2Proof.Machine
end

