-- ==== Sys2Proof/Machine/Arithmetic.lean ====
section
/-!
DEFINITION. ADD, SUB, MUL, DIV, INC, DEC (spec 41_arithmetic rules R150 to R160). Each computes exactly from the old values of
its sources and ends in one checked register write. IP already holds `idx + 1` (rule R13).
-/

namespace Sys2Proof.Machine

/-- A two-source arithmetic instruction: the exact result of the sources, written to the destination (rules R150, R151). -/
def aluWrite (f : Int → Int → Int) (a b dst : RegId) (s : State) : Result :=
  writeReg dst (f (s.val a) (s.val b)) s

/-- ADD a, b, dst: `dst = read(a) + read(b)` (rule R152). -/
def execAdd (a b dst : RegId) (s : State) : Result := aluWrite (fun x y => x + y) a b dst s

/-- SUB a, b, dst: `dst = read(a) - read(b)` (rule R153). -/
def execSub (a b dst : RegId) (s : State) : Result := aluWrite (fun x y => x - y) a b dst s

/-- MUL a, b, dst: `dst = read(a) * read(b)`, the exact signed product (rule R154). -/
def execMul (a b dst : RegId) (s : State) : Result := aluWrite (fun x y => x * y) a b dst s

/-- The cases of a division (rule R155). -/
inductive Quotient where
  | byZero
  | inexact
  | value (q : Int)
  deriving DecidableEq, Repr

/-- The laws of DIV under a value of `DIV_INEXACT` (rule R155): the zero test first, then exactness. -/
def divide (mode : Config.DivInexact) (a b : Int) : Quotient :=
  if b = 0 then .byZero
  else if a % b = 0 then .value (a / b)
  else
    match mode with
    | .fault => .inexact
    | .trunc => .value (a.tdiv b)
    | .floor => .value (a.fdiv b)

/-- DIV under a value of `DIV_INEXACT` (rules R155, R156). -/
def divideWrite (mode : Config.DivInexact) (a b dst : RegId) (s : State) : Result :=
  match divide mode (s.val a) (s.val b) with
  | .byZero => .next (raise .divisionByZero 0 s)
  | .inexact => .next (raise .inexactDivision 0 s)
  | .value q => writeReg dst q s

/-- DIV a, b, dst: the exact quotient, or a fault (rule R156, decision D3). -/
def execDiv (a b dst : RegId) (s : State) : Result := divideWrite Config.divInexact a b dst s

/-- INC a: `a = read(a) + 1` (rule R158). -/
def execInc (a : RegId) (s : State) : Result := writeReg a (s.val a + 1) s

/-- DEC a: `a = read(a) - 1` (rule R159). -/
def execDec (a : RegId) (s : State) : Result := writeReg a (s.val a - 1) s

end Sys2Proof.Machine
end

