-- ==== Sys2Proof/Machine/CompareConst.lean ====
section
/-!
DEFINITION. CMP and CONST (spec 42_compare_const rules R170 to R173).
-/

namespace Sys2Proof.Machine

/-- CMP op, a, b, dst: `dst = 1` if `read(a) op read(b)` else `0` (rule R171). -/
def execCmp (op : CmpOp) (a b dst : RegId) (s : State) : Result :=
  writeReg dst (b2i (cmpHolds op (s.val a) (s.val b))) s

/-- CONST value, dst: `dst = value`, an immediate, not a register read (rule R173). -/
def execConst (value : Int) (dst : RegId) (s : State) : Result := writeReg dst value s

end Sys2Proof.Machine
end

