-- ==== Sys2Proof/Machine/ControlFlow.lean ====
section
/-!
DEFINITION. JMP and JZ (spec 44_control_flow rules R190 to R194). A target is absolute and is checked only by the next fetch.
-/

namespace Sys2Proof.Machine

/-- JMP reg, offset: `IP = read(reg) + offset`, a checked register write (rule R191). -/
def execJmp (reg : RegId) (offset : Int) (s : State) : Result := writeReg .ip (jumpTarget reg offset s) s

/-- JZ reg_target, reg_test: `IP = read(reg_target)` when `read(reg_test)` is exactly 0, else nothing (rule R192). -/
def execJz (target test : RegId) (s : State) : Result :=
  if isZero (s.val test) then writeReg .ip (s.val target) s else .next s

end Sys2Proof.Machine
end

