-- ==== Sys2Proof/Machine/LoadStore.lean ====
section
/-!
DEFINITION. LOAD and STORE (spec 43_load_store rules R180 to R183).
-/

namespace Sys2Proof.Machine

/-- LOAD rs, rd, offset: `rd = memory.read(read(rs) + offset)` (rule R182). -/
def execLoad (rs rd : RegId) (offset : Int) (s : State) : Result :=
  memRead (effectiveAddr rs offset s) (fun v t => writeReg rd v.toInt t) s

/-- STORE rs, rd, offset: `memory.write(read(rs) + offset, read(rd))` (rule R183). -/
def execStore (rs rd : RegId) (offset : Int) (s : State) : Result :=
  memWrite (effectiveAddr rs offset s) (s.reg rd) s

end Sys2Proof.Machine
end

