-- ==== Sys2Proof/Machine/System.lean ====
section
/-!
DEFINITION. HALT, the only system instruction (spec 45_system_halt rules R200, R201).
-/

namespace Sys2Proof.Machine

/-- HALT: the engine becomes Halted; IP stays at the index of the HALT plus 1 (rule R201). -/
def execHalt (s : State) : Result := .next (haltEngine s)

end Sys2Proof.Machine
end

