-- ==== Sys2Proof/Machine/Dispatch.lean ====
section
/-!
DEFINITION. The handler of each instruction (spec 40 rules R127, R129; document table 4.4), on the state the pre-increment left.
-/

namespace Sys2Proof.Machine

-- The handler runs after the pre-increment: IP is idx + 1 (rules R13, R126).
def exec (i : Instr) (s : State) : Host.Outcome State Fault Refusal :=
  match i with
  | .add a b dst => Sys2Proof.Machine.execAdd a b dst s
  | .sub a b dst => Sys2Proof.Machine.execSub a b dst s
  | .mul a b dst => Sys2Proof.Machine.execMul a b dst s
  | .div a b dst => Sys2Proof.Machine.execDiv a b dst s
  | .inc a => Sys2Proof.Machine.execInc a s
  | .dec a => Sys2Proof.Machine.execDec a s
  | .cmp op a b dst => Sys2Proof.Machine.execCmp op a b dst s
  | .const value dst => Sys2Proof.Machine.execConst value dst s
  | .load rs rd offset => Sys2Proof.Machine.execLoad rs rd offset s
  | .store rs rd offset => Sys2Proof.Machine.execStore rs rd offset s
  | .jmp reg offset => Sys2Proof.Machine.execJmp reg offset s
  | .jz target test => Sys2Proof.Machine.execJz target test s
  | .halt => Sys2Proof.Machine.execHalt s

end Sys2Proof.Machine
end

