-- ==== Sys2Proof/Machine/Fetch.lean ====
section
/-!
DEFINITION. The front of a step: the engine test, the fetch, the pre-increment and the decode, up to the point where a handler
takes over (spec 40_fetch_step_cycle rules R121 to R128, R131), and placing a word where the next fetch reads it.
-/

namespace Sys2Proof.Machine

/-- What a fetch answers. -/
inductive Fetched where
  /-- the word at index IP -/
  | word (w : InstrWord)
  /-- IP is outside the Program -/
  | outOfRange
  /-- the Program breaks the bound of rule R51 (log entry 2) -/
  | tooLong
  deriving DecidableEq, Repr

/-- Read the word at index IP after the range check `0 <= ip < PROG_LEN` (rule R122). A negative IP is out of range. -/
def fetch (s : State) : Fetched :=
  if Config.vMax < s.prog.length then .tooLong
  else if s.val .ip < 0 then .outOfRange
  else
    match s.prog[(s.val .ip).toNat]? with
    | some w => .word w
    | none => .outOfRange

/-- The pre-increment `x[8] <- idx + 1`, after a successful fetch and before decode (rule R126). -/
def preIncrement (s : State) : State := s.setReg .ip (BitVec.ofInt 64 (s.val .ip + 1))

/-- Take a decode fault, with its information value (rules R127, R128, R212). -/
def raiseDecode (f : DecodeFault) (s : State) : State :=
  match f with
  | .unsupportedInstruction opcode => raise .unsupportedInstruction opcode.toNat s
  | .unknownRegister id => raise .unknownRegister id.toNat s
  | .unsupportedOperator cop => raise .unsupportedOperator cop.toNat s

/-- What the front of a step hands on. -/
inductive Front where
  /-- the step is complete without a handler, in this state -/
  | done (s : State)
  /-- the machine stops -/
  | stop (f : Fault)
  /-- the handler of this instruction runs on this state -/
  | issue (i : Instr) (s : State)
  deriving DecidableEq, Repr

/-- A fetched word: pre-increment, then decode (rules R126 to R128). -/
def issueWord (w : InstrWord) (s : State) : Front :=
  match decode w with
  | .instr i => .issue i (preIncrement s)
  | .fault f => .done (raiseDecode f (preIncrement s))

/-- The front of a step (rule R131). In Halted and Faulted the step is the identity (rule R121). -/
def front (s : State) : Front :=
  match s.engine with
  | .halted => .done s
  | .faulted => .done s
  | .running =>
    match fetch s with
    | .tooLong => .stop .programTooLong
    | .outOfRange => .done (raise .programCounterOutOfRange (s.val .ip) s)
    | .word w => issueWord w s

/-- The Program with a word at an index, lengthened with all-zero words when it is too short. -/
def placeWord : List InstrWord → Nat → InstrWord → List InstrWord
  | [], 0, w => [w]
  | _ :: rest, 0, w => w :: rest
  | [], n + 1, w => 0 :: placeWord [] n w
  | h :: rest, n + 1, w => h :: placeWord rest n w

/-- Place a word at index IP and let the engine fetch it: the engine is set Running, and an IP that no Program index can
equal (negative, or `VMAX`) is set to 0 (log entry 5). -/
def placeAtIp (w : InstrWord) (s : State) : State :=
  let slot : Int := if 0 ≤ s.val .ip ∧ s.val .ip < Config.vMax then s.val .ip else 0
  { s.setReg .ip (BitVec.ofInt 64 slot) with
    engine := .running
    prog := placeWord s.prog slot.toNat w }

end Sys2Proof.Machine
end

