-- ==== Sys2Proof/Machine/Step.lean ====
section
/-!
DEFINITION. One step (spec 40_fetch_step_cycle rule R131), and the host's way to place a table row's word (log entry 5).
-/

namespace Sys2Proof.Machine

/-- The step function: the front of the step, then the handler of the decoded instruction (rules R129 to R131). -/
def step (s : State) : Host.Outcome State Fault Refusal :=
  match front s with
  | .done t => .next t
  | .stop f => .fault f
  | .issue i t => exec i t

/-- The state with a table row's word where the next step fetches it (log entry 5). -/
def State.withFetchWord (s : State) (nbits w : Nat) : State := placeAtIp (tableWord nbits w) s

end Sys2Proof.Machine
end

