-- ==== Sys2Proof/Machine/Ports.lean ====
section
/-!
DEFINITION. The boundary of the core: its ports (spec 40 rule R141), the optional trace (rule R140) and the host's actions
(rules R142 to R146, R275). Everything here reads or prepares a state; no step reads any of it.
-/

namespace Sys2Proof.Machine

/-! ### Status and fault ports -/

/-- The code of the engine state on the `state` port (rule R31, decision D25). -/
def EngineState.code : EngineState → BitVec 2
  | .running => 0
  | .halted => 1
  | .faulted => 2

/-- The cause code of a fault kind (rule R212). -/
def FaultKind.code : FaultKind → BitVec 4
  | .none => 0
  | .unknownRegister => 1
  | .outOfBoundsAccess => 2
  | .divisionByZero => 3
  | .unsupportedOperator => 4
  | .unsupportedInstruction => 5
  | .programCounterOutOfRange => 6
  | .arithmeticOverflow => 7
  | .inexactDivision => 8

/-- The `state` port. -/
def portState (s : State) : BitVec 2 := s.engine.code
/-- The `fault_kind` port. -/
def portFaultKind (s : State) : BitVec 4 := s.fault.kind.code
/-- The `fault_info` port. -/
def portFaultInfo (s : State) : InfoWord := s.fault.info
/-- The `fault_ip` port. -/
def portFaultIp (s : State) : Word := s.fault.ip
/-- `prog_len`, the number of words of the Program; the port itself is an input of 64 bits. -/
def portProgLen (s : State) : Nat := s.prog.length

/-- The register read port: `reg_rd_data` for a `reg_rd_sel` of 0 to 9 (rule R141); none for a number that selects no register
(log entry 6). DESIGN CHOICE (log entry 13, unsafe): the spec gives the port for after the run only, and the model's answers in every
engine state, a Running one too, with the register's content. -/
def regReadPort (sel : BitVec 4) (s : State) : Option Word :=
  match RegId.ofField? sel with
  | some r => some (s.reg r)
  | none => none

/-- The memory's own read port for the host (rules R64, R141, R144): the content of a cell that exists, none past the last (log
entry 6). DESIGN CHOICE (log entry 13, unsafe): rules R58 and R141 have the host read after the run only, and the model's port
answers in every engine state, a Running one too, with the cell's content. -/
def memReadPort (a : Nat) (s : State) : Option Word :=
  if a < Config.memCap then some (s.mem.read a) else none

/-! ### The store ports, as a step in progress drives them -/

/-- `imem_addr`: IP, presented only when the fetch is in range. -/
def portImemAddr (s : State) : Option Word :=
  match s.engine, fetch s with
  | .running, .word _ => some (s.reg .ip)
  | _, _ => none

/-- One access on the `dmem_*` signals: `dmem_wdata` is driven by a STORE only. -/
structure DmemAccess where
  addr : BitVec 10
  we : Bool
  wdata : Option Word
  deriving DecidableEq, Repr

/-- The access a handler makes, after the bounds check has passed; none for an instruction that makes none. -/
def dmemOf (i : Instr) (s : State) : Option DmemAccess :=
  match i with
  | .load rs _ offset =>
    if InBounds (effectiveAddr rs offset s) then
      some { addr := BitVec.ofInt 10 (effectiveAddr rs offset s), we := false, wdata := none }
    else none
  | .store rs rd offset =>
    if InBounds (effectiveAddr rs offset s) then
      some { addr := BitVec.ofInt 10 (effectiveAddr rs offset s), we := true, wdata := some (s.reg rd) }
    else none
  | .add _ _ _ => none
  | .sub _ _ _ => none
  | .mul _ _ _ => none
  | .div _ _ _ => none
  | .inc _ => none
  | .dec _ => none
  | .cmp _ _ _ _ => none
  | .const _ _ => none
  | .jmp _ _ => none
  | .jz _ _ => none
  | .halt => none

/-- The data-memory access of the step that starts in this state. -/
def portDmem (s : State) : Option DmemAccess :=
  match front s with
  | .issue i t => dmemOf i t
  | _ => none

/-! ### The trace port (rule R140, decision D22; log entry 6) -/

/-- The register a handler writes when it completes, if any; a taken jump is a write of register 8. -/
def regWritten (i : Instr) (s : State) : Option RegId :=
  match i with
  | .add _ _ dst => some dst
  | .sub _ _ dst => some dst
  | .mul _ _ dst => some dst
  | .div _ _ dst => some dst
  | .inc a => some a
  | .dec a => some a
  | .cmp _ _ _ dst => some dst
  | .const _ dst => some dst
  | .load _ rd _ => some rd
  | .store _ _ _ => none
  | .jmp _ _ => some .ip
  | .jz _ test => if isZero (s.val test) then some .ip else none
  | .halt => none

/-- One trace event: `trace_ip`, `trace_word`, and the register write when `trace_wr_en` is 1. -/
structure TraceEvent where
  ip : Word
  word : InstrWord
  write : Option (BitVec 4 × Word)
  deriving DecidableEq, Repr

/-- The event of the step that starts in this state: one when its handler completes without a fault, else none. -/
def traceEvent (s : State) : Option TraceEvent :=
  match fetch s, front s with
  | .word w, .issue i t =>
    match exec i t with
    | .next u =>
      if u.engine = .faulted then none
      else
        some
          { ip := s.reg .ip
            word := w
            write := (regWritten i t).map fun r => (r.num, u.reg r) }
    | _ => none
  | _, _ => none

/-! ### The host (rules R142 to R146, R275) -/

/-- Place a Program: any words whatever; nothing validates them (rule R142). -/
def loadProgram (p : List InstrWord) (s : State) : State := { s with prog := p }

/-- A run's first state: the Program placed and `rst` asserted and released (rules R143, R265). -/
def startRun (p : List InstrWord) : State := assertRst (loadProgram p State.reset)

/-- What the host receives (rules R144, R145): the registers and the memory of a halted run, the fault record of a faulted one. -/
inductive RunOutcome where
  | halted (registers : RegFile) (memory : Memory)
  | faulted (kind : FaultKind) (info : InfoWord) (ip : Word)
  deriving DecidableEq, Repr

/-- The outcome of a run, once it has ended (rule R146). -/
def outcome (s : State) : Option RunOutcome :=
  match s.engine with
  | .running => none
  | .halted => some (.halted s.regs s.mem)
  | .faulted => some (.faulted s.fault.kind s.fault.info s.fault.ip)

/-- A run under the caller's step budget: exhaustion is a result of its own, neither Halted nor Faulted (rule R275). -/
inductive RunResult where
  | ended (o : RunOutcome)
  | exhausted (s : State)
  | stopped (f : Fault)
  | refused (r : Refusal)
  deriving DecidableEq, Repr

/-- Step until the run ends or the budget is spent (rules R131, R275, decision D24). -/
def runUnder : Nat → State → RunResult
  | 0, s =>
    match outcome s with
    | some o => .ended o
    | none => .exhausted s
  | n + 1, s =>
    match outcome s with
    | some o => .ended o
    | none =>
      match step s with
      | .next t => runUnder n t
      | .fault f => .stopped f
      | .refused r => .refused r

end Sys2Proof.Machine
end

