-- ==== Sys2Proof/Safety.lean ====
section
/-!
DEFINITION. What a correct step looks like, in the terms the statements use: the frames of a register write, a memory write and
a fault, the words an opcode reads from, and the invariant of the machine.
-/

namespace Sys2Proof.Machine

/-- The handler of one instruction run `n` times over. -/
def execTimes : Nat → Instr → State → Host.Outcome State Fault Refusal
  | 0, _, s => .next s
  | n + 1, i, s =>
    match exec i s with
    | .next t => execTimes n i t
    | .fault f => .fault f
    | .refused r => .refused r

/-! ### Where a step stands -/

/-- The engine is Running and the word at index IP of a Program within its bound is `w` (rules R51, R122). -/
structure AtWord (s : State) (w : InstrWord) : Prop where
  running : s.engine = .running
  bounded : (s.prog.length : Int) ≤ Config.vMax
  nonneg : 0 ≤ s.val .ip
  word : s.prog[(s.val .ip).toNat]? = some w

/-! ### Frames -/

/-- Register `d` holds the integer `v` and nothing else differs. -/
structure RegWritten (s t : State) (d : RegId) (v : Int) : Prop where
  value : t.val d = v
  others : ∀ r, r ≠ d → t.reg r = s.reg r
  cells : ∀ a, t.mem.read a = s.mem.read a
  engine : t.engine = s.engine
  fault : t.fault = s.fault
  prog : t.prog = s.prog

/-- Cell `a` holds `v` and nothing else differs. -/
structure CellWritten (s t : State) (a : Nat) (v : Word) : Prop where
  value : t.mem.read a = v
  others : ∀ b, b ≠ a → t.mem.read b = s.mem.read b
  regs : ∀ r, t.reg r = s.reg r
  engine : t.engine = s.engine
  fault : t.fault = s.fault
  prog : t.prog = s.prog

/-- The fault of this kind and information value has been taken, and nothing but the engine state and the record differs
(rule R230). -/
structure FaultTaken (s t : State) (kind : FaultKind) (info : Int) : Prop where
  engine : t.engine = .faulted
  kind : t.fault.kind = kind
  info : t.fault.info.toInt = info
  ip : t.fault.ip = s.reg .ip
  regs : ∀ r, t.reg r = s.reg r
  cells : ∀ a, t.mem.read a = s.mem.read a
  prog : t.prog = s.prog

/-- The engine state is `e` and nothing else differs. -/
structure EngineSet (s t : State) (e : EngineState) : Prop where
  engine : t.engine = e
  regs : ∀ r, t.reg r = s.reg r
  cells : ∀ a, t.mem.read a = s.mem.read a
  fault : t.fault = s.fault
  prog : t.prog = s.prog

/-- A checked register write: the value when it lies in `Val`, else ArithmeticOverflow with nothing written (rules R9, R151). -/
def WritesOrOverflows (o : Host.Outcome State Fault Refusal) (s : State) (d : RegId) (v : Int) : Prop :=
  (Config.InVal v → ∃ t, o = .next t ∧ RegWritten s t d v) ∧
  (¬ Config.InVal v → ∃ t, o = .next t ∧ FaultTaken s t .arithmeticOverflow 0)

/-! ### The words an opcode reads from (rules R83, R85, R91) -/

/-- Field `f` holds 10 to 15: it names no register. -/
abbrev NoReg (f : RegField) : Prop := 9 < f.toNat

/-- A word of this opcode decodes to the record of its three register fields, or to UnknownRegister for the first of them that
names none; its other fields do not matter. -/
def ReadsThreeRegs (code : OpcodeField) (mk : RegId → RegId → RegId → Instr) : Prop :=
  ∀ w : InstrWord, w.opcode = code →
    (∀ a b d : RegId, w.f1 = a.num → w.f2 = b.num → w.f3 = d.num → decode w = .instr (mk a b d)) ∧
    (NoReg w.f1 → decode w = .fault (.unknownRegister w.f1)) ∧
    (¬ NoReg w.f1 → NoReg w.f2 → decode w = .fault (.unknownRegister w.f2)) ∧
    (¬ NoReg w.f1 → ¬ NoReg w.f2 → NoReg w.f3 → decode w = .fault (.unknownRegister w.f3))

/-- The same for two register fields and the literal of `imm`. -/
def ReadsTwoRegs (code : OpcodeField) (mk : RegId → RegId → Int → Instr) : Prop :=
  ∀ w : InstrWord, w.opcode = code →
    (∀ a b : RegId, w.f1 = a.num → w.f2 = b.num → decode w = .instr (mk a b w.imm.toInt)) ∧
    (NoReg w.f1 → decode w = .fault (.unknownRegister w.f1)) ∧
    (¬ NoReg w.f1 → NoReg w.f2 → decode w = .fault (.unknownRegister w.f2))

/-- The same for one register field and the literal of `imm`. -/
def ReadsOneReg (code : OpcodeField) (mk : RegId → Int → Instr) : Prop :=
  ∀ w : InstrWord, w.opcode = code →
    (∀ a : RegId, w.f1 = a.num → decode w = .instr (mk a w.imm.toInt)) ∧
    (NoReg w.f1 → decode w = .fault (.unknownRegister w.f1))

/-! ### What an instruction names (rule R24) -/

/-- The register an instruction may write, by its record alone. -/
def targetOf : Instr → Option RegId
  | .add _ _ dst => some dst
  | .sub _ _ dst => some dst
  | .mul _ _ dst => some dst
  | .div _ _ dst => some dst
  | .inc a => some a
  | .dec a => some a
  | .cmp _ _ _ dst => some dst
  | .const _ dst => some dst
  | .load _ rd _ => some rd
  | .store _ _ _ => none
  | .jmp _ _ => some .ip
  | .jz _ _ => some .ip
  | .halt => none

/-- Which faults the handler of an instruction can take (rules R212, R220). -/
def MayRaise : Instr → FaultKind → Prop
  | .add _ _ _, k => k = .arithmeticOverflow
  | .sub _ _ _, k => k = .arithmeticOverflow
  | .mul _ _ _, k => k = .arithmeticOverflow
  | .div _ _ _, k => k = .divisionByZero ∨ k = .inexactDivision ∨ k = .arithmeticOverflow
  | .inc _, k => k = .arithmeticOverflow
  | .dec _, k => k = .arithmeticOverflow
  | .cmp _ _ _ _, _ => False
  | .const _ _, _ => False
  | .load _ _ _, k => k = .outOfBoundsAccess
  | .store _ _ _, k => k = .outOfBoundsAccess
  | .jmp _ _, k => k = .arithmeticOverflow
  | .jz _ _, _ => False
  | .halt, _ => False

/-- The kind a decode fault is recorded under (rule R212). -/
def decodeFaultKind : DecodeFault → FaultKind
  | .unsupportedInstruction _ => .unsupportedInstruction
  | .unknownRegister _ => .unknownRegister
  | .unsupportedOperator _ => .unsupportedOperator

/-- The information value a decode fault is recorded with: the field's value (rule R212). -/
def decodeFaultInfo : DecodeFault → Int
  | .unsupportedInstruction opcode => opcode.toNat
  | .unknownRegister id => id.toNat
  | .unsupportedOperator cop => cop.toNat

/-! ### The invariant -/

/-- What rule R212 says of a record of each kind, for a Program of `len` words: the information value the kind carries, and
`fault.ip`, which is `idx + 1` for an `idx` inside the Program except for ProgramCounterOutOfRange. -/
def FaultRecord.Legal (f : FaultRecord) (len : Nat) : Prop :=
  match f.kind with
  | .none => f.info.toInt = 0 ∧ f.ip.toInt = 0
  | .unknownRegister => (10 ≤ f.info.toInt ∧ f.info.toInt ≤ 15) ∧ 1 ≤ f.ip.toInt ∧ f.ip.toInt ≤ len
  | .outOfBoundsAccess => ¬ InBounds f.info.toInt ∧ 1 ≤ f.ip.toInt ∧ f.ip.toInt ≤ len
  | .divisionByZero => f.info.toInt = 0 ∧ 1 ≤ f.ip.toInt ∧ f.ip.toInt ≤ len
  | .unsupportedOperator => (6 ≤ f.info.toInt ∧ f.info.toInt ≤ 15) ∧ 1 ≤ f.ip.toInt ∧ f.ip.toInt ≤ len
  | .unsupportedInstruction =>
    (f.info.toInt = 0 ∨ (14 ≤ f.info.toInt ∧ f.info.toInt ≤ 255)) ∧ 1 ≤ f.ip.toInt ∧ f.ip.toInt ≤ len
  | .programCounterOutOfRange => f.info.toInt = f.ip.toInt ∧ (f.ip.toInt < 0 ∨ (len : Int) ≤ f.ip.toInt)
  | .arithmeticOverflow => f.info.toInt = 0 ∧ 1 ≤ f.ip.toInt ∧ f.ip.toInt ≤ len
  | .inexactDivision => f.info.toInt = 0 ∧ 1 ≤ f.ip.toInt ∧ f.ip.toInt ≤ len

/-- The word of the Program that stands just before index `ip`. -/
def wordBefore (p : List InstrWord) (ip : Int) : Option InstrWord := p[(ip - 1).toNat]?

/-- What raised a recorded fault (rule R212, columns "raised by" and "when"): the fetch unit, or the word just before `fault.ip`,
which fails to decode with this kind and information value or is an instruction whose handler can take this kind. -/
def FaultRecord.Raised (f : FaultRecord) (p : List InstrWord) : Prop :=
  f.kind = .programCounterOutOfRange ∨
  ∃ w, wordBefore p f.ip.toInt = some w ∧
    ((∃ d, decode w = .fault d ∧ f.kind = decodeFaultKind d ∧ f.info.toInt = decodeFaultInfo d) ∨
      (∃ i, decode w = .instr i ∧ MayRaise i f.kind))

/-- The engine and the fault record fit together (rules R31, R32, R201, R212, R230): no fault is recorded before Faulted, a
Halted engine stands just after a HALT of the Program, and a Faulted one holds a legal record of what raised it, whose `ip` is the
IP register. -/
def State.EngineLegal (s : State) : Prop :=
  match s.engine with
  | .running => s.fault = FaultRecord.clear
  | .halted => s.fault = FaultRecord.clear ∧ (1 ≤ s.val .ip ∧ s.val .ip ≤ s.prog.length) ∧
      ∃ w, wordBefore s.prog (s.val .ip) = some w ∧ decode w = .instr .halt
  | .faulted => s.fault.kind ≠ .none ∧ s.fault.ip = s.reg .ip ∧ s.fault.Legal s.prog.length ∧ s.fault.Raised s.prog

/-- The invariant of the machine: memory in the model's canonical form (log entry 3), a Program within its bound (rule R51), and a
legal engine and record. -/
structure State.Inv (s : State) : Prop where
  memory : s.mem.wf
  program : (s.prog.length : Int) ≤ Config.vMax
  engine : s.EngineLegal

/-! ### Comparing two runs -/

/-- The same outcome but for the memory. -/
def AgreeButMemory (o p : Host.Outcome State Fault Refusal) : Prop :=
  ∃ t u, o = .next t ∧ p = .next u ∧
    u.regs = t.regs ∧ u.engine = t.engine ∧ u.fault = t.fault ∧ u.prog = t.prog

end Sys2Proof.Machine
end

