-- ==== Sys2Proof/Certificates/Slice0/Obligations.lean ====
section
/-!
DEFINITION. The statements for the provers, in the order of the spec's files. Every docstring names the rule or the decision of
spec/ the statement formalises. Frames, the words an opcode reads from and the invariant are defined in `Sys2Proof/Safety.lean`.
-/

open Sys2Proof Sys2Proof.Machine

/-! ### Reset and the invariant -/

/-- Rule R262: a run of a non-empty Program starts Running, with IP 0, and the first step fetches its word 0. -/
def Obligations.RunStartsAtIndexZero : Prop :=
  ∀ (w : InstrWord) (rest : List InstrWord), ((w :: rest).length : Int) ≤ Config.vMax →
    (startRun (w :: rest)).engine = .running ∧ (startRun (w :: rest)).val .ip = 0 ∧
      fetch (startRun (w :: rest)) = .word w

/-- 70_reset_and_hazards section 1 and 10_state section 8: reset, in any engine state, zeroes every register and cell, clears the
record and leaves the Program alone. The zeros of R0 to R7 and SP are the spec's decision D7, the cleared record D15
(log entry 4). -/
def Obligations.ResetClearsAllStateButTheProgram : Prop :=
  ∀ s : State, (∀ r, (assertRst s).val r = 0) ∧ (∀ a, (assertRst s).mem.read a = 0) ∧
    (assertRst s).engine = .running ∧ (assertRst s).fault.kind = .none ∧ (assertRst s).fault.info.toInt = 0 ∧
    (assertRst s).fault.ip.toInt = 0 ∧ (assertRst s).prog = s.prog

/-- The invariant holds at reset, with nothing placed and at the start of every run (10_state section 8). Its canonical form of the
memory is the model's choice of log entry 3; that the record is clear at reset is the spec's decision D15 (log entry 4); its bound on
the Program is 20_memory section 2 (decision D13). -/
def Obligations.ResetMeetsTheInvariant : Prop :=
  State.reset.Inv ∧ ∀ p : List InstrWord, (p.length : Int) ≤ Config.vMax → (startRun p).Inv

/-- Every step keeps the invariant: memory in canonical form (the model's choice, log entry 3); the Program's bound (20_memory section
2, decision D13); no record before Faulted (10_state section 5, decision D15); in Halted, IP inside 1 to `PROG_LEN` and the word just
before it a HALT (45_system_halt section 2); in Faulted, a record that is a row of the cause table, raised by the fetch or by the word
just before the recorded IP (60_exceptions section 2, decision D15), its `ip` the IP register (60_exceptions section 5, decision D18). -/
def Obligations.StepKeepsTheInvariant : Prop :=
  ∀ s t : State, s.Inv → step s = .next t → t.Inv

/-- Rule R132, within the Program bound of rule R51: the step is total, it answers a next state. -/
def Obligations.StepAnswersWithinTheProgramBound : Prop :=
  ∀ s : State, (s.prog.length : Int) ≤ Config.vMax → ∃ t, step s = .next t

/-- The model's one stop (log entry 2): a Running engine over a Program longer than rule R51 allows. -/
def Obligations.OverlongProgramStopsTheStep : Prop :=
  ∀ s : State, s.engine = .running → Config.vMax < (s.prog.length : Int) → step s = .fault .programTooLong

/-! ### Fetch, decode and the step -/

/-- Rule R121: in Halted and in Faulted the step function is the identity, for ever. -/
def Obligations.HaltedAndFaultedAbsorb : Prop :=
  ∀ (s : State) (n : Nat), s.engine ≠ .running → step s = .next s ∧ core.run n s = .next s

/-- Rule R122: the range check before every fetch, and the word read when it passes. -/
def Obligations.FetchChecksTheRange : Prop :=
  ∀ s : State, s.engine = .running → (s.prog.length : Int) ≤ Config.vMax →
    (s.val .ip < 0 ∨ (s.prog.length : Int) ≤ s.val .ip →
      ∃ t, step s = .next t ∧ FaultTaken s t .programCounterOutOfRange (s.val .ip)) ∧
    (0 ≤ s.val .ip → s.val .ip < s.prog.length →
      ∃ w, s.prog[(s.val .ip).toNat]? = some w ∧ fetch s = .word w)

/-- 40_fetch_step_cycle section 6: a step runs the handler of the decoded instruction on the state in which only IP differs, by
one more. -/
def Obligations.StepRunsTheDecodedInstruction : Prop :=
  ∀ (s : State) (w : InstrWord) (i : Instr), AtWord s w → decode w = .instr i →
    step s = exec i (preIncrement s) ∧ RegWritten s (preIncrement s) .ip (s.val .ip + 1)

/-- Rule R127: an opcode outside 0x01 to 0x0D raises UnsupportedInstruction(opcode), after the pre-increment. -/
def Obligations.UnknownOpcodeFaultsAfterThePreIncrement : Prop :=
  ∀ (s : State) (w : InstrWord), AtWord s w → w.opcode.toNat < 0x01 ∨ 0x0D < w.opcode.toNat →
    ∃ s₁ t, RegWritten s s₁ .ip (s.val .ip + 1) ∧ step s = .next t ∧
      FaultTaken s₁ t .unsupportedInstruction w.opcode.toNat

/-- 40_fetch_step_cycle section 4 (the order is the spec's decision D26): the used register fields are checked in the order f1, f2,
f3, whether or not the handler would reach them, and CMP's operator after them. -/
def Obligations.DecodeChecksFieldsInOrder : Prop :=
  ∀ (s : State) (w : InstrWord) (op : Opcode), AtWord s w → w.opcode = op.code →
    ∃ s₁, RegWritten s s₁ .ip (s.val .ip + 1) ∧
      (1 ≤ op.uses → NoReg w.f1 →
        ∃ t, step s = .next t ∧ FaultTaken s₁ t .unknownRegister w.f1.toNat) ∧
      (2 ≤ op.uses → ¬ NoReg w.f1 → NoReg w.f2 →
        ∃ t, step s = .next t ∧ FaultTaken s₁ t .unknownRegister w.f2.toNat) ∧
      (3 ≤ op.uses → ¬ NoReg w.f1 → ¬ NoReg w.f2 → NoReg w.f3 →
        ∃ t, step s = .next t ∧ FaultTaken s₁ t .unknownRegister w.f3.toNat) ∧
      (op = .cmp → ¬ NoReg w.f1 → ¬ NoReg w.f2 → ¬ NoReg w.f3 → 5 < w.cop.toNat →
        ∃ t, step s = .next t ∧ FaultTaken s₁ t .unsupportedOperator w.cop.toNat)

/-- 60_exceptions section 5 (decisions D17, D18): a step that fetched a word and faults has had no effect but the pre-increment,
and records the incremented IP. -/
def Obligations.FaultsArePrecise : Prop :=
  ∀ (s t : State) (w : InstrWord), AtWord s w → step s = .next t → t.engine = .faulted →
    t.fault.ip.toInt = s.val .ip + 1 ∧ t.val .ip = s.val .ip + 1 ∧
      (∀ r, r ≠ .ip → t.reg r = s.reg r) ∧ (∀ a, t.mem.read a = s.mem.read a) ∧ t.prog = s.prog

/-- Rule R130: HALT leaves the engine Halted; every other instruction that does not fault leaves it Running. -/
def Obligations.OnlyHaltHalts : Prop :=
  ∀ (s t : State) (w : InstrWord) (i : Instr), AtWord s w → decode w = .instr i → step s = .next t →
    (i = .halt → t.engine = .halted) ∧ (i ≠ .halt → t.engine ≠ .faulted → t.engine = .running)

/-- 60_exceptions section 2 (decision D15): a handler takes only the faults its row of the table gives it. -/
def Obligations.HandlersTakeOnlyTheirFaults : Prop :=
  ∀ (i : Instr) (s t : State), i.WellFormed → s.engine = .running → exec i s = .next t → t.engine = .faulted →
    MayRaise i t.fault.kind

/-- 10_state section 5 (decision D15): the fault record changes only in a step that takes the engine from Running to Faulted. -/
def Obligations.FaultRecordChangesOnlyOnAFault : Prop :=
  ∀ s t : State, step s = .next t → t.fault ≠ s.fault → s.engine = .running ∧ t.engine = .faulted

/-- No handler stops: every instruction, in every state, answers a next state. -/
def Obligations.EveryInstructionAnswers : Prop :=
  ∀ (i : Instr) (s : State), ∃ t, exec i s = .next t

/-! ### Encoding -/

/-- `decode(encode(r)) = r` for every record that has an encoding (30_encoding section 6). -/
def Obligations.DecodeOfEncodeIsTheRecord : Prop :=
  ∀ i : Instr, i.WellFormed → decode (encode i) = .instr i

/-- `encode(decode(w))` is `w` with its ignored bits 0, so it is `w` exactly when they are 0 (30_encoding section 6). -/
def Obligations.EncodeOfDecodeIsCanonical : Prop :=
  ∀ (w : InstrWord) (i : Instr), decode w = .instr i →
    encode i = canonicalWord i.opcode w ∧ (encode i = w ↔ canonicalWord i.opcode w = w)

/-- 30_encoding section 5 (decision D11): any bit pattern in the fields an opcode does not use decodes alike, faults included. -/
def Obligations.IgnoredBitsDoNotMatter : Prop :=
  ∀ (op : Opcode) (w v : InstrWord), w.opcode = op.code → v.opcode = op.code →
    canonicalWord op w = canonicalWord op v → decode w = decode v

/-- Every word that decodes gives a record that has an encoding (rule R84: every literal is an element of `Val`). -/
def Obligations.DecodedRecordsAreWellFormed : Prop :=
  ∀ (w : InstrWord) (i : Instr), decode w = .instr i → i.WellFormed

/-- Words the spec writes out decode to what they stand for: ADD and MUL (41_arithmetic sections 2 and 4), CMP and CONST
(42_compare_const sections 1 and 2), STORE (95_test_vectors part 2, V-ST-2), JMP and JZ (44_control_flow sections 2 and 3), HALT
(45_system_halt section 2); by the layout and numbers of 30_encoding sections 2 to 4 (decisions D5 and D8 to D12). -/
def Obligations.SpecWordsDecode : Prop :=
  decode 0x010120000000000000000000#96 = .instr (.add .r0 .r1 .r2) ∧
  decode 0x030030000000000000000000#96 = .instr (.mul .r0 .r0 .r3) ∧
  decode 0x070123000000000000000000#96 = .instr (.cmp .ge .r0 .r1 .r2) ∧
  decode 0x08300000FFFFFFFFFFFFFFFF#96 = .instr (.const (-1) .r3) ∧
  decode 0x0A010000FFFFFFFFFFFFFFFB#96 = .instr (.store .r0 .r1 (-5)) ∧
  decode 0x0B3000000000000000000004#96 = .instr (.jmp .r3 4) ∧
  decode 0x0C2000000000000000000000#96 = .instr (.jz .r2 .r0) ∧
  decode 0x0D0000000000000000000000#96 = .instr .halt

/-! ### Arithmetic -/

/-- Rule R152, whole: the words, the exact sum, the overflow, and nothing else changed. -/
def Obligations.AddWritesTheExactSum : Prop :=
  ReadsThreeRegs 0x01 .add ∧
  ∀ (s : State) (a b d : RegId), WritesOrOverflows (exec (.add a b d) s) s d (s.val a + s.val b)

/-- Rule R153, whole: `a` minus `b`, in that order. -/
def Obligations.SubWritesTheExactDifference : Prop :=
  ReadsThreeRegs 0x02 .sub ∧
  ∀ (s : State) (a b d : RegId), WritesOrOverflows (exec (.sub a b d) s) s d (s.val a - s.val b)

/-- Rule R154, whole: the exact signed product; no high half, no truncation. -/
def Obligations.MulWritesTheExactProduct : Prop :=
  ReadsThreeRegs 0x03 .mul ∧
  ∀ (s : State) (a b d : RegId), WritesOrOverflows (exec (.mul a b d) s) s d (s.val a * s.val b)

/-- 41_arithmetic section 5, whole (the inexact case is the spec's decision D3): the zero test first, then exactness, then the
write of the exact quotient. -/
def Obligations.DivWritesTheExactQuotient : Prop :=
  ReadsThreeRegs 0x04 .div ∧
  ∀ (s : State) (a b d : RegId),
    (s.val b = 0 → ∃ t, exec (.div a b d) s = .next t ∧ FaultTaken s t .divisionByZero 0) ∧
    (s.val b ≠ 0 → (¬ ∃ q : Int, q * s.val b = s.val a) →
      ∃ t, exec (.div a b d) s = .next t ∧ FaultTaken s t .inexactDivision 0) ∧
    (s.val b ≠ 0 → ∀ q : Int, q * s.val b = s.val a → WritesOrOverflows (exec (.div a b d) s) s d q)

/-- On a Running state DIV always completes its step, and that step ends in ArithmeticOverflow for `VMIN / -1` and for no other operands
(41_arithmetic section 5; 60_exceptions section 2, decision D2). -/
def Obligations.DivOverflowsOnlyForVminByMinusOne : Prop :=
  ∀ (s : State) (a b d : RegId), s.engine = .running →
    ∃ t, exec (.div a b d) s = .next t ∧
      (t.engine = .faulted ∧ t.fault.kind = .arithmeticOverflow ↔ s.val a = Config.vMin ∧ s.val b = -1)

/-- 41_arithmetic section 5, the laws of DIV, for the other values of the parameter `DIV_INEXACT` (decision D3): `trunc` rounds toward zero, `floor`
toward minus infinity, and an exact quotient is the same under all three. -/
def Obligations.DivRoundingParameters : Prop :=
  ∀ a b : Int, b ≠ 0 →
    (∃ q, divide .floor a b = .value q ∧ 0 ≤ (a - q * b) * b ∧ |a - q * b| < |b|) ∧
    (∃ q, divide .trunc a b = .value q ∧ 0 ≤ (a - q * b) * a ∧ |a - q * b| < |b|) ∧
    (∀ q mode, q * b = a → divide mode a b = .value q)

/-- Rule R158, whole. -/
def Obligations.IncAddsOne : Prop :=
  ReadsOneReg 0x05 (fun a _ => .inc a) ∧
  ∀ (s : State) (a : RegId), WritesOrOverflows (exec (.inc a) s) s a (s.val a + 1)

/-- Rule R159, whole. -/
def Obligations.DecSubtractsOne : Prop :=
  ReadsOneReg 0x06 (fun a _ => .dec a) ∧
  ∀ (s : State) (a : RegId), WritesOrOverflows (exec (.dec a) s) s a (s.val a - 1)

/-- The document's INC property, for every N up to `VMAX` (rule R158, corner cases): N INCs of a register that holds 0 leave N in
it and change nothing else. -/
def Obligations.RepeatedIncCounts : Prop :=
  ∀ (s : State) (r : RegId) (n : Nat), s.val r = 0 → (n : Int) ≤ Config.vMax →
    ∃ t, execTimes n (.inc r) s = .next t ∧ RegWritten s t r n

/-! ### Compare and constant -/

/-- Rules R170 and R171, whole: 1 when the relation holds, 0 when it does not; a code of 6 to 15 is UnsupportedOperator. -/
def Obligations.CmpWritesOneOrZero : Prop :=
  (∀ w : InstrWord, w.opcode = 0x07 →
    (∀ (op : CmpOp) (a b d : RegId), w.f1 = a.num → w.f2 = b.num → w.f3 = d.num → w.cop = op.code →
      decode w = .instr (.cmp op a b d)) ∧
    (NoReg w.f1 → decode w = .fault (.unknownRegister w.f1)) ∧
    (¬ NoReg w.f1 → NoReg w.f2 → decode w = .fault (.unknownRegister w.f2)) ∧
    (¬ NoReg w.f1 → ¬ NoReg w.f2 → NoReg w.f3 → decode w = .fault (.unknownRegister w.f3)) ∧
    (¬ NoReg w.f1 → ¬ NoReg w.f2 → ¬ NoReg w.f3 → 5 < w.cop.toNat →
      decode w = .fault (.unsupportedOperator w.cop))) ∧
  ∀ (s : State) (a b d : RegId),
    (∃ t, exec (.cmp .lt a b d) s = .next t ∧ RegWritten s t d (if s.val a < s.val b then 1 else 0)) ∧
    (∃ t, exec (.cmp .gt a b d) s = .next t ∧ RegWritten s t d (if s.val a > s.val b then 1 else 0)) ∧
    (∃ t, exec (.cmp .le a b d) s = .next t ∧ RegWritten s t d (if s.val a ≤ s.val b then 1 else 0)) ∧
    (∃ t, exec (.cmp .ge a b d) s = .next t ∧ RegWritten s t d (if s.val a ≥ s.val b then 1 else 0)) ∧
    (∃ t, exec (.cmp .eq a b d) s = .next t ∧ RegWritten s t d (if s.val a = s.val b then 1 else 0)) ∧
    (∃ t, exec (.cmp .ne a b d) s = .next t ∧ RegWritten s t d (if s.val a ≠ s.val b then 1 else 0))

/-- Rule R173, whole: the literal, negative ones included, whatever the register held; CONST never overflows. -/
def Obligations.ConstWritesTheLiteral : Prop :=
  ReadsOneReg 0x08 (fun d v => .const v d) ∧
  ∀ (s : State) (v : Int) (d : RegId), (Instr.const v d).WellFormed →
    ∃ t, exec (.const v d) s = .next t ∧ RegWritten s t d v

/-! ### Load and store -/

/-- The effective address is the exact 65-bit sum (43_load_store section 1, decision D19): `fault.info` can hold it. -/
def Obligations.EffectiveAddressFitsTheInfoField : Prop :=
  ∀ (s : State) (rs : RegId) (offset : Int), Config.InVal offset →
    -(2 ^ 64) ≤ effectiveAddr rs offset s ∧ effectiveAddr rs offset s ≤ 2 ^ 64 - 2 ∧
      (BitVec.ofInt 65 (effectiveAddr rs offset s)).toInt = s.val rs + offset

/-- Rule R182, whole: inside the memory the cell's content goes to `rd`; outside, OutOfBoundsAccess with the exact address. -/
def Obligations.LoadReadsTheAddressedCell : Prop :=
  ReadsTwoRegs 0x09 .load ∧
  ∀ (s : State) (rs rd : RegId) (offset : Int), (Instr.load rs rd offset).WellFormed →
    (0 ≤ s.val rs + offset → s.val rs + offset < 1024 →
      ∃ t, exec (.load rs rd offset) s = .next t ∧
        RegWritten s t rd (s.mem.read (s.val rs + offset).toNat).toInt) ∧
    (s.val rs + offset < 0 ∨ 1024 ≤ s.val rs + offset →
      ∃ t, exec (.load rs rd offset) s = .next t ∧ FaultTaken s t .outOfBoundsAccess (s.val rs + offset))

/-- Rule R183, whole: inside the memory the register's content goes to the cell at `x[rs] + offset` and every other cell and every
register keeps its content; outside, OutOfBoundsAccess with the exact address. -/
def Obligations.StoreWritesTheAddressedCell : Prop :=
  ReadsTwoRegs 0x0A .store ∧
  ∀ (s : State) (rs rd : RegId) (offset : Int), (Instr.store rs rd offset).WellFormed →
    (0 ≤ s.val rs + offset → s.val rs + offset < 1024 →
      ∃ t, exec (.store rs rd offset) s = .next t ∧
        CellWritten s t (s.val rs + offset).toNat (s.reg rd)) ∧
    (s.val rs + offset < 0 ∨ 1024 ≤ s.val rs + offset →
      ∃ t, exec (.store rs rd offset) s = .next t ∧ FaultTaken s t .outOfBoundsAccess (s.val rs + offset))

/-- 20_memory section 8: a LOAD after a STORE reads what was stored when the addresses are equal, and what the cell held before
when they differ. -/
def Obligations.LoadReturnsTheLatestStore : Prop :=
  ∀ (s : State) (rs rd rs' rd' : RegId) (offset offset' : Int),
    InBounds (effectiveAddr rs offset s) → InBounds (effectiveAddr rs' offset' s) →
    ∃ t u, exec (.store rs rd offset) s = .next t ∧ exec (.load rs' rd' offset') t = .next u ∧
      u.reg rd' = (if effectiveAddr rs' offset' s = effectiveAddr rs offset s then s.reg rd
        else s.mem.read (effectiveAddr rs' offset' s).toNat)

/-- 20_memory section 1: a cell changes only in a step that runs a STORE whose effective address is that cell. -/
def Obligations.OnlyStoreChangesACell : Prop :=
  ∀ (s t : State) (a : Nat), step s = .next t → t.mem.read a ≠ s.mem.read a →
    ∃ (w : InstrWord) (rs rd : RegId) (offset : Int), AtWord s w ∧ decode w = .instr (.store rs rd offset) ∧
      effectiveAddr rs offset (preIncrement s) = a

/-- 20_memory section 1: nothing but a LOAD reads the memory, and a LOAD only its own cell. Two runs of one instruction from
states that differ in memory alone, and agree on the cell a LOAD addresses when its address is in bounds, differ in memory alone. -/
def Obligations.OnlyLoadReadsACell : Prop :=
  ∀ (i : Instr) (s : State) (m : Memory),
    (∀ rs rd offset, i = .load rs rd offset → InBounds (effectiveAddr rs offset s) →
      m.read (effectiveAddr rs offset s).toNat = s.mem.read (effectiveAddr rs offset s).toNat) →
    AgreeButMemory (exec i s) (exec i { s with mem := m })

/-! ### Control flow and halt -/

/-- Rule R191, whole: the absolute target, checked against `Val` only. -/
def Obligations.JmpSetsTheAbsoluteTarget : Prop :=
  ReadsOneReg 0x0B .jmp ∧
  ∀ (s : State) (r : RegId) (offset : Int),
    WritesOrOverflows (exec (.jmp r offset) s) s .ip (s.val r + offset)

/-- Rule R192, whole: taken exactly when the tested register is 0; no offset; never a fault of its own. -/
def Obligations.JzBranchesExactlyOnZero : Prop :=
  ReadsTwoRegs 0x0C (fun g c _ => .jz g c) ∧
  ∀ (s : State) (g c : RegId),
    (s.val c = 0 → ∃ t, exec (.jz g c) s = .next t ∧ RegWritten s t .ip (s.val g)) ∧
    (s.val c ≠ 0 → exec (.jz g c) s = .next s)

/-- 44_control_flow section 1: a jump to a target outside the Program completes without a fault, and the next step's fetch faults
against the target. -/
def Obligations.BadJumpTargetFaultsAtTheNextFetch : Prop :=
  ∀ (s : State) (r : RegId) (offset : Int), s.engine = .running → (s.prog.length : Int) ≤ Config.vMax →
    Config.InVal (s.val r + offset) → (s.val r + offset < 0 ∨ (s.prog.length : Int) ≤ s.val r + offset) →
    ∃ t u, exec (.jmp r offset) s = .next t ∧ t.engine = .running ∧ step t = .next u ∧
      FaultTaken t u .programCounterOutOfRange (s.val r + offset) ∧ u.fault.ip.toInt = s.val r + offset

/-- The idioms of 30_encoding section 7: `JMP IP 0` changes nothing, and a step of `JMP IP -1` leaves the whole state as it was. -/
def Obligations.JmpIpIdioms : Prop :=
  (∀ s : State, exec (.jmp .ip 0) s = .next s) ∧
  ∀ (s : State) (w : InstrWord), AtWord s w → decode w = .instr (.jmp .ip (-1)) → step s = .next s

/-- Rule R201, whole: every word of the opcode is HALT; the engine becomes Halted and nothing else changes, so IP stays at the
index of the HALT plus 1, and no further instruction is dispatched. -/
def Obligations.HaltStopsTheEngine : Prop :=
  (∀ w : InstrWord, w.opcode = 0x0D → decode w = .instr .halt) ∧
  (∀ s : State, ∃ t, exec .halt s = .next t ∧ EngineSet s t .halted) ∧
  ∀ (s : State) (w : InstrWord), AtWord s w → w.opcode = 0x0D →
    ∃ t, step s = .next t ∧ t.engine = .halted ∧ t.val .ip = s.val .ip + 1 ∧ step t = .next t

/-! ### Whole-machine rules -/

/-- 10_state section 2 (decision D4): no handler changes a register but the one it writes, a taken jump writing IP. -/
def Obligations.OnlyTheWrittenRegisterChanges : Prop :=
  ∀ (i : Instr) (s t : State) (r : RegId), exec i s = .next t → regWritten i s ≠ some r → t.reg r = s.reg r

/-- 10_state section 5 (decision D6): a run of a Program that never names SP as a destination leaves SP alone. -/
def Obligations.SpIsUntouchedUnlessNamed : Prop :=
  ∀ (n : Nat) (s t : State), (∀ w ∈ s.prog, ∀ i, decode w = .instr i → targetOf i ≠ some .sp) →
    core.run n s = .next t → t.reg .sp = s.reg .sp

/-- 20_memory sections 2 and 11: the Program is the same at every step of a run. -/
def Obligations.ProgramIsImmutable : Prop :=
  ∀ (n : Nat) (s t : State), core.run n s = .next t → t.prog = s.prog

/-- 40_fetch_step_cycle section 2: a step depends on no word of the Program but the one at index IP. -/
def Obligations.StepDependsOnOneProgramWord : Prop :=
  ∀ (s t : State) (p : List InstrWord) (w : InstrWord), AtWord s w → AtWord { s with prog := p } w →
    step s = .next t → step { s with prog := p } = .next { t with prog := p }

/-- 70_reset_and_hazards section 3: a run under a step budget reports exhaustion exactly when it has taken that many steps and the
engine is still Running. -/
def Obligations.ExhaustionIsARunningEngine : Prop :=
  ∀ (n : Nat) (s t : State), runUnder n s = .exhausted t ↔ core.run n s = .next t ∧ t.engine = .running

/-! ### Ports -/

/-- 40_fetch_step_cycle section 7 (decisions D20, D25): the codes of the `state` port, the cause codes of 60_exceptions section 2
(decision D15) on the `fault_kind` port, the record on the other two fault ports, and the register read port over the ten
identifiers; 40_fetch_step_cycle section 8: there is an outcome exactly when the run has ended. That the read port gives nothing for
10 to 15 is the model's choice of log entry 6, and that it gives the register's content while the engine is Running too (rule R141
speaks of the time after the run) that of log entry 13. -/
def Obligations.PortsShowTheState : Prop :=
  (∀ s : State, (portState s = 0 ↔ s.engine = .running) ∧ (portState s = 1 ↔ s.engine = .halted) ∧
    (portState s = 2 ↔ s.engine = .faulted) ∧ portState s ≠ 3) ∧
  (∀ s : State, (portFaultKind s = 0 ↔ s.fault.kind = .none) ∧ (portFaultKind s = 1 ↔ s.fault.kind = .unknownRegister) ∧
    (portFaultKind s = 2 ↔ s.fault.kind = .outOfBoundsAccess) ∧ (portFaultKind s = 3 ↔ s.fault.kind = .divisionByZero) ∧
    (portFaultKind s = 4 ↔ s.fault.kind = .unsupportedOperator) ∧
    (portFaultKind s = 5 ↔ s.fault.kind = .unsupportedInstruction) ∧
    (portFaultKind s = 6 ↔ s.fault.kind = .programCounterOutOfRange) ∧
    (portFaultKind s = 7 ↔ s.fault.kind = .arithmeticOverflow) ∧ (portFaultKind s = 8 ↔ s.fault.kind = .inexactDivision) ∧
    (portFaultKind s).toNat ≤ 8 ∧ portFaultInfo s = s.fault.info ∧ portFaultIp s = s.fault.ip) ∧
  (∀ (s : State) (r : RegId), regReadPort r.num s = some (s.reg r)) ∧
  (∀ (s : State) (f : RegField), NoReg f → regReadPort f s = none) ∧
  (∀ s : State, outcome s = none ↔ s.engine = .running)

/-- 40_fetch_step_cycle section 7 (decision D22): a trace event appears exactly when a handler completes without a fault; it
carries the index and the word fetched, and the register it reports holds the value it reports. -/
def Obligations.TraceReportsCompletedHandlers : Prop :=
  ∀ (s t : State) (w : InstrWord) (i : Instr), AtWord s w → decode w = .instr i → step s = .next t →
    (t.engine = .faulted → traceEvent s = none) ∧
    (t.engine ≠ .faulted → ∃ e, traceEvent s = some e ∧ e.ip = s.reg .ip ∧ e.word = w ∧
      (e.write = none ↔ regWritten i (preIncrement s) = none) ∧
      ∀ n v, e.write = some (n, v) → ∃ r, r.num = n ∧ regWritten i (preIncrement s) = some r ∧ t.reg r = v)

/-- 40_fetch_step_cycle section 8 (decisions D15, D29): the outcome of a Halted run carries the ten registers and the 1024 cells, which
the host's read ports give as well, and the outcome of a Faulted run the kind, the information value and the IP of the record. -/
def Obligations.OutcomeCarriesTheEndOfTheRun : Prop :=
  (∀ s : State, s.engine = .halted → ∃ registers memory, outcome s = some (.halted registers memory) ∧
    (∀ r, registers.read r = s.reg r ∧ regReadPort r.num s = some (registers.read r)) ∧
    (∀ a, a < 1024 → memory.read a = s.mem.read a ∧ memReadPort a s = some (memory.read a))) ∧
  (∀ s : State, s.engine = .faulted → outcome s = some (.faulted s.fault.kind s.fault.info s.fault.ip))

/-- 40_fetch_step_cycle section 7 (decision D20): `imem_addr` is IP exactly when a word is fetched; the `dmem` signals carry a LOAD's or
a STORE's cell number once its bounds check has passed, with `dmem_we` 1 and the stored value for a STORE, and are idle otherwise. That a
signal not in use, and every one of an engine that is not Running, reads as nothing is the model's choice of log entry 6. -/
def Obligations.StorePortsCarryTheAccess : Prop :=
  (∀ (s : State) (w : InstrWord), AtWord s w → portImemAddr s = some (s.reg .ip)) ∧
  (∀ s : State, s.engine ≠ .running ∨ s.val .ip < 0 ∨ (s.prog.length : Int) ≤ s.val .ip →
    portImemAddr s = none ∧ portDmem s = none) ∧
  (∀ (s : State) (w : InstrWord) (rs rd : RegId) (offset : Int), AtWord s w → decode w = .instr (.load rs rd offset) →
    (InBounds (effectiveAddr rs offset (preIncrement s)) →
      ∃ e, portDmem s = some e ∧ e.addr.toNat = effectiveAddr rs offset (preIncrement s) ∧ e.we = false) ∧
    (¬ InBounds (effectiveAddr rs offset (preIncrement s)) → portDmem s = none)) ∧
  (∀ (s : State) (w : InstrWord) (rs rd : RegId) (offset : Int), AtWord s w → decode w = .instr (.store rs rd offset) →
    (InBounds (effectiveAddr rs offset (preIncrement s)) →
      ∃ e, portDmem s = some e ∧ e.addr.toNat = effectiveAddr rs offset (preIncrement s) ∧ e.we = true ∧
        e.wdata = some ((preIncrement s).reg rd)) ∧
    (¬ InBounds (effectiveAddr rs offset (preIncrement s)) → portDmem s = none)) ∧
  (∀ (s : State) (w : InstrWord), AtWord s w →
    (∀ rs rd offset, decode w ≠ .instr (.load rs rd offset) ∧ decode w ≠ .instr (.store rs rd offset)) → portDmem s = none)
end

