-- ==== Sys2Proof/Laws/Decode.lean ====
section
/-!
SUPPORT. The numbers of the encoding are inverse to the fields, and the fields of a packed word are its parts.
-/

namespace Sys2Proof

@[simp] theorem RegId.ofField?_num (r : RegId) : RegId.ofField? r.num = some r := by
  cases r <;> rfl

@[simp] theorem CmpOp.ofField?_code (op : CmpOp) : CmpOp.ofField? op.code = some op := by
  cases op <;> rfl

@[simp] theorem Opcode.ofField?_code (op : Opcode) : Opcode.ofField? op.code = some op := by
  cases op <;> rfl

theorem RegId.num_of_ofField? : ∀ (f : RegField) (r : RegId), RegId.ofField? f = some r → f = r.num := by
  intro f r h
  have : ∀ g : Fin 16, RegId.ofField? (BitVec.ofFin g) = some r → (BitVec.ofFin g : RegField) = r.num := by
    cases r <;> decide
  exact this f.toFin h

theorem CmpOp.code_of_ofField? : ∀ (c : CopField) (op : CmpOp), CmpOp.ofField? c = some op → c = op.code := by
  intro c op h
  have : ∀ g : Fin 16, CmpOp.ofField? (BitVec.ofFin g) = some op → (BitVec.ofFin g : CopField) = op.code := by
    cases op <;> decide
  exact this c.toFin h

theorem Opcode.code_of_ofField? (b : OpcodeField) (op : Opcode) (h : Opcode.ofField? b = some op) : b = op.code := by
  unfold Opcode.ofField? at h
  split at h <;> cases h <;> exact BitVec.eq_of_toNat_eq ‹b.toNat = _›

/-- A field names a register exactly when it holds 0 to 9 (rule R85). -/
theorem RegId.ofField?_eq_none (f : RegField) : RegId.ofField? f = none ↔ 9 < f.toNat := by
  have : ∀ g : Fin 16, RegId.ofField? (BitVec.ofFin g) = none ↔ 9 < (BitVec.ofFin g : RegField).toNat := by decide
  exact this f.toFin

/-- A `cop` field selects an operator exactly when it holds 0 to 5 (rule R86). -/
theorem CmpOp.ofField?_eq_none (c : CopField) : CmpOp.ofField? c = none ↔ 5 < c.toNat := by
  have : ∀ g : Fin 16, CmpOp.ofField? (BitVec.ofFin g) = none ↔ 5 < (BitVec.ofFin g : CopField).toNat := by decide
  exact this c.toFin

/-- A byte is an opcode exactly when it is 0x01 to 0x0D (rules R87, R88). -/
theorem Opcode.ofField?_eq_none (b : OpcodeField) :
    Opcode.ofField? b = none ↔ b.toNat < 0x01 ∨ 0x0D < b.toNat := by
  unfold Opcode.ofField?
  split <;> simp_all
  omega

/-- A used field that names no register stops the decode with UnknownRegister. -/
theorem needReg_unknown {f : RegField} (k : RegId → Decoded) (h : 9 < f.toNat) :
    needReg f k = .fault (.unknownRegister f) := by
  simp [needReg, (RegId.ofField?_eq_none f).2 h]

@[simp] theorem needReg_num (r : RegId) (k : RegId → Decoded) : needReg r.num k = k r := by
  simp [needReg]

@[simp] theorem needOp_code (op : CmpOp) (k : CmpOp → Decoded) : needOp op.code k = k op := by
  simp [needOp]

theorem needOp_unsupported {c : CopField} (k : CmpOp → Decoded) (h : 5 < c.toNat) :
    needOp c k = .fault (.unsupportedOperator c) := by
  simp [needOp, (CmpOp.ofField?_eq_none c).2 h]

/-- A field that passes the check is the number of a register. -/
theorem exists_num {f : RegField} (h : ¬ 9 < f.toNat) : ∃ r : RegId, f = r.num := by
  cases hr : RegId.ofField? f with
  | none => exact absurd ((RegId.ofField?_eq_none f).1 hr) h
  | some r => exact ⟨r, RegId.num_of_ofField? f r hr⟩

/-- If a checked field lets the decode answer an instruction, it named a register. -/
theorem needReg_eq_instr {f : RegField} {k : RegId → Decoded} {i : Instr} (h : needReg f k = .instr i) :
    ∃ r : RegId, f = r.num ∧ k r = .instr i := by
  unfold needReg at h
  cases hr : RegId.ofField? f with
  | none => simp [hr] at h
  | some r => exact ⟨r, RegId.num_of_ofField? f r hr, by simpa [hr] using h⟩

theorem needOp_eq_instr {c : CopField} {k : CmpOp → Decoded} {i : Instr} (h : needOp c k = .instr i) :
    ∃ op : CmpOp, c = op.code ∧ k op = .instr i := by
  unfold needOp at h
  cases hr : CmpOp.ofField? c with
  | none => simp [hr] at h
  | some op => exact ⟨op, CmpOp.code_of_ofField? c op hr, by simpa [hr] using h⟩

section Pack
variable (op : OpcodeField) (a b d : RegField) (c : CopField) (v : Word)

/-- Every bit of a packed word: the bit of the field that covers it (rule R82). -/
theorem getLsbD_packWord (i : Nat) :
    (packWord op a b d c v).getLsbD i =
      if i < 64 then v.getLsbD i
      else if i < 72 then false
      else if i < 76 then c.getLsbD (i - 72)
      else if i < 80 then d.getLsbD (i - 76)
      else if i < 84 then b.getLsbD (i - 80)
      else if i < 88 then a.getLsbD (i - 84)
      else op.getLsbD (i - 88) := by
  show BitVec.getLsbD (w := 8 + 4 + 4 + 4 + 4 + 8 + 64) (op ++ a ++ b ++ d ++ c ++ (0 : BitVec 8) ++ v) i = _
  simp only [BitVec.getLsbD_append, Nat.sub_sub]
  by_cases h₁ : i < 64
  · simp [h₁]
  by_cases h₂ : i < 72
  · simp [h₁, h₂, show i - 64 < 8 by omega]
  by_cases h₃ : i < 76
  · simp [h₁, h₂, h₃, show ¬ i - 64 < 8 by omega, show i - 72 < 4 by omega]
  by_cases h₄ : i < 80
  · simp [h₁, h₂, h₃, h₄, show ¬ i - 64 < 8 by omega, show ¬ i - 72 < 4 by omega, show i - 76 < 4 by omega]
  by_cases h₅ : i < 84
  · simp [h₁, h₂, h₃, h₄, h₅, show ¬ i - 64 < 8 by omega, show ¬ i - 72 < 4 by omega, show ¬ i - 76 < 4 by omega,
      show i - 80 < 4 by omega]
  by_cases h₆ : i < 88
  · simp [h₁, h₂, h₃, h₄, h₅, h₆, show ¬ i - 64 < 8 by omega, show ¬ i - 72 < 4 by omega, show ¬ i - 76 < 4 by omega,
      show ¬ i - 80 < 4 by omega, show i - 84 < 4 by omega]
  · simp [h₁, h₂, h₃, h₄, h₅, h₆, show ¬ i - 64 < 8 by omega, show ¬ i - 72 < 4 by omega, show ¬ i - 76 < 4 by omega,
      show ¬ i - 80 < 4 by omega, show ¬ i - 84 < 4 by omega]

@[simp] theorem packWord_opcode : (packWord op a b d c v).opcode = op := by
  refine BitVec.eq_of_getLsbD_eq fun i hi => ?_
  rw [InstrWord.opcode, BitVec.getLsbD_extractLsb', getLsbD_packWord]
  interval_cases i <;> simp

@[simp] theorem packWord_f1 : (packWord op a b d c v).f1 = a := by
  refine BitVec.eq_of_getLsbD_eq fun i hi => ?_
  rw [InstrWord.f1, BitVec.getLsbD_extractLsb', getLsbD_packWord]
  interval_cases i <;> simp

@[simp] theorem packWord_f2 : (packWord op a b d c v).f2 = b := by
  refine BitVec.eq_of_getLsbD_eq fun i hi => ?_
  rw [InstrWord.f2, BitVec.getLsbD_extractLsb', getLsbD_packWord]
  interval_cases i <;> simp

@[simp] theorem packWord_f3 : (packWord op a b d c v).f3 = d := by
  refine BitVec.eq_of_getLsbD_eq fun i hi => ?_
  rw [InstrWord.f3, BitVec.getLsbD_extractLsb', getLsbD_packWord]
  interval_cases i <;> simp

@[simp] theorem packWord_cop : (packWord op a b d c v).cop = c := by
  refine BitVec.eq_of_getLsbD_eq fun i hi => ?_
  rw [InstrWord.cop, BitVec.getLsbD_extractLsb', getLsbD_packWord]
  interval_cases i <;> simp

@[simp] theorem packWord_rsv : (packWord op a b d c v).rsv = 0 := by
  refine BitVec.eq_of_getLsbD_eq fun i hi => ?_
  rw [InstrWord.rsv, BitVec.getLsbD_extractLsb', getLsbD_packWord]
  interval_cases i <;> simp

@[simp] theorem packWord_imm : (packWord op a b d c v).imm = v := by
  refine BitVec.eq_of_getLsbD_eq fun i hi => ?_
  rw [InstrWord.imm, BitVec.getLsbD_extractLsb', getLsbD_packWord]
  simp [hi]

@[simp] theorem packWord_literal : (packWord op a b d c v).literal = v.toInt := by
  simp [InstrWord.literal]

end Pack

/-! ### What the decoder does with a word whose opcode is known -/

/-- The decode of a word depends on its opcode, then on its fields alone. -/
theorem decode_of_opcode {w : InstrWord} {op : Opcode} (h : w.opcode = op.code) :
    decode w = match op with
      | .add => needReg w.f1 fun a => needReg w.f2 fun b => needReg w.f3 fun d => .instr (.add a b d)
      | .sub => needReg w.f1 fun a => needReg w.f2 fun b => needReg w.f3 fun d => .instr (.sub a b d)
      | .mul => needReg w.f1 fun a => needReg w.f2 fun b => needReg w.f3 fun d => .instr (.mul a b d)
      | .div => needReg w.f1 fun a => needReg w.f2 fun b => needReg w.f3 fun d => .instr (.div a b d)
      | .inc => needReg w.f1 fun a => .instr (.inc a)
      | .dec => needReg w.f1 fun a => .instr (.dec a)
      | .cmp => needReg w.f1 fun a => needReg w.f2 fun b => needReg w.f3 fun d =>
          needOp w.cop fun o => .instr (.cmp o a b d)
      | .const => needReg w.f1 fun d => .instr (.const w.literal d)
      | .load => needReg w.f1 fun rs => needReg w.f2 fun rd => .instr (.load rs rd w.literal)
      | .store => needReg w.f1 fun rs => needReg w.f2 fun rd => .instr (.store rs rd w.literal)
      | .jmp => needReg w.f1 fun r => .instr (.jmp r w.literal)
      | .jz => needReg w.f1 fun g => needReg w.f2 fun t => .instr (.jz g t)
      | .halt => .instr .halt := by
  cases op <;> simp [decode, h]

/-- A word that decodes has an opcode of the closed set. -/
theorem exists_opcode {w : InstrWord} {i : Instr} (h : decode w = .instr i) : ∃ op : Opcode, w.opcode = op.code := by
  cases ho : Opcode.ofField? w.opcode with
  | none => simp [decode, ho] at h
  | some op => exact ⟨op, Opcode.code_of_ofField? _ _ ho⟩

/-- Every way a word can decode to an instruction: its opcode, the fields it uses, its literal. -/
theorem decode_cases {w : InstrWord} {i : Instr} (h : decode w = .instr i) :
    (∃ a b d, w.opcode = Opcode.add.code ∧ w.f1 = a.num ∧ w.f2 = b.num ∧ w.f3 = d.num ∧ i = .add a b d) ∨
    (∃ a b d, w.opcode = Opcode.sub.code ∧ w.f1 = a.num ∧ w.f2 = b.num ∧ w.f3 = d.num ∧ i = .sub a b d) ∨
    (∃ a b d, w.opcode = Opcode.mul.code ∧ w.f1 = a.num ∧ w.f2 = b.num ∧ w.f3 = d.num ∧ i = .mul a b d) ∨
    (∃ a b d, w.opcode = Opcode.div.code ∧ w.f1 = a.num ∧ w.f2 = b.num ∧ w.f3 = d.num ∧ i = .div a b d) ∨
    (∃ a, w.opcode = Opcode.inc.code ∧ w.f1 = a.num ∧ i = .inc a) ∨
    (∃ a, w.opcode = Opcode.dec.code ∧ w.f1 = a.num ∧ i = .dec a) ∨
    (∃ o a b d, w.opcode = Opcode.cmp.code ∧ w.f1 = a.num ∧ w.f2 = b.num ∧ w.f3 = d.num ∧ w.cop = o.code ∧
      i = .cmp o a b d) ∨
    (∃ d, w.opcode = Opcode.const.code ∧ w.f1 = d.num ∧ i = .const w.literal d) ∨
    (∃ a b, w.opcode = Opcode.load.code ∧ w.f1 = a.num ∧ w.f2 = b.num ∧ i = .load a b w.literal) ∨
    (∃ a b, w.opcode = Opcode.store.code ∧ w.f1 = a.num ∧ w.f2 = b.num ∧ i = .store a b w.literal) ∨
    (∃ a, w.opcode = Opcode.jmp.code ∧ w.f1 = a.num ∧ i = .jmp a w.literal) ∨
    (∃ a b, w.opcode = Opcode.jz.code ∧ w.f1 = a.num ∧ w.f2 = b.num ∧ i = .jz a b) ∨
    (w.opcode = Opcode.halt.code ∧ i = .halt) := by
  obtain ⟨op, ho⟩ := exists_opcode h
  rw [decode_of_opcode ho] at h
  cases op <;> simp only at h
  case halt =>
    cases h
    simp [ho]
  case inc | dec | const | jmp =>
    obtain ⟨a, ha, h⟩ := needReg_eq_instr h
    cases h
    simp [ho, ha, Opcode.code]
  case load | store | jz =>
    obtain ⟨a, ha, h⟩ := needReg_eq_instr h
    obtain ⟨b, hb, h⟩ := needReg_eq_instr h
    cases h
    simp [ho, ha, hb, Opcode.code]
  case cmp =>
    obtain ⟨a, ha, h⟩ := needReg_eq_instr h
    obtain ⟨b, hb, h⟩ := needReg_eq_instr h
    obtain ⟨d, hd, h⟩ := needReg_eq_instr h
    obtain ⟨o, hc, h⟩ := needOp_eq_instr h
    cases h
    simp [ho, ha, hb, hd, hc, Opcode.code]
  all_goals
    obtain ⟨a, ha, h⟩ := needReg_eq_instr h
    obtain ⟨b, hb, h⟩ := needReg_eq_instr h
    obtain ⟨d, hd, h⟩ := needReg_eq_instr h
    cases h
    simp [ho, ha, hb, hd, Opcode.code]

end Sys2Proof
end

