-- ==== Sys2Proof/Laws/Memory.lean ====
section
/-!
SUPPORT. The laws of the data memory: what a read sees after a write, and that a write keeps the canonical form.
-/

namespace Sys2Proof.Machine

@[simp] theorem Memory.read_nil (a : Nat) : Memory.read [] a = Memory.unlisted := rfl

theorem Memory.read_of_not_listed (m : Memory) (a : Nat) (h : ∀ c ∈ m, c.1 ≠ a) : m.read a = Memory.unlisted := by
  induction m with
  | nil => rfl
  | cons c rest ih =>
    simp only [Memory.read, if_neg (h c (by simp))]
    exact ih fun d hd => h d (by simp [hd])

theorem Memory.read_insert (m : Memory) (a b : Nat) (v : Word) (h : ∀ c ∈ m, c.1 ≠ a) :
    (m.insert a v).read b = if b = a then v else m.read b := by
  induction m with
  | nil => simp [Memory.insert, Memory.read, eq_comm]
  | cons c rest ih =>
    have hc := h c (by simp)
    simp only [Memory.insert]
    split
    · simp [Memory.read, eq_comm]
    · simp only [Memory.read, ih fun d hd => h d (by simp [hd])]
      split_ifs <;> simp_all

theorem Memory.read_filter (m : Memory) (a b : Nat) (h : b ≠ a) :
    Memory.read (m.filter fun c => c.1 != a) b = m.read b := by
  induction m with
  | nil => rfl
  | cons c rest ih =>
    by_cases hc : c.1 = a
    · simp [hc, Memory.read, ih, Ne.symm h]
    · simp [hc, Memory.read, ih]

/-- A read after a write: the value written at its address, the old content at every other. Needs no canonical form. -/
theorem Memory.read_write (m : Memory) (a b : Nat) (v : Word) :
    (m.write a v).read b = if b = a then v else m.read b := by
  have hno : ∀ c ∈ m.filter (fun c => c.1 != a), c.1 ≠ a := by
    intro c hc
    simpa using (List.mem_filter.1 hc).2
  have hread : Memory.read (m.filter fun c => c.1 != a) b = if b = a then Memory.unlisted else m.read b := by
    split
    · next h =>
      subst h
      exact Memory.read_of_not_listed _ _ hno
    · next h => exact Memory.read_filter m a b h
  simp only [Memory.write]
  split
  · next hv => rw [hread, hv]
  · rw [Memory.read_insert _ _ _ _ hno, hread]
    split_ifs <;> rfl

theorem Memory.mem_insert {m : Memory} {a : Nat} {v : Word} {c : MemCell} :
    c ∈ m.insert a v ↔ c = (a, v) ∨ c ∈ m := by
  induction m with
  | nil => simp [Memory.insert]
  | cons d rest ih =>
    simp only [Memory.insert]
    split
    · simp
    · simp only [List.mem_cons, ih]
      tauto

theorem Memory.pairwise_insert (m : Memory) (a : Nat) (v : Word) (hm : m.Pairwise fun c d => c.1 < d.1)
    (ha : ∀ c ∈ m, c.1 ≠ a) : (m.insert a v).Pairwise fun c d => c.1 < d.1 := by
  induction m with
  | nil => simp [Memory.insert]
  | cons d rest ih =>
    obtain ⟨hd, hrest⟩ := List.pairwise_cons.1 hm
    have hda := ha d (by simp)
    simp only [Memory.insert]
    split
    · next hlt =>
      refine List.pairwise_cons.2 ⟨fun c hc => ?_, hm⟩
      rcases List.mem_cons.1 hc with rfl | hc
      · exact hlt
      · exact lt_trans hlt (hd c hc)
    · next hlt =>
      refine List.pairwise_cons.2 ⟨fun c hc => ?_, ih hrest fun c hc => ha c (by simp [hc])⟩
      rcases Memory.mem_insert.1 hc with rfl | hc
      · show d.1 < a
        omega
      · exact hd c hc

/-- Every memory operation keeps the canonical form: a write inside the memory does. -/
theorem Memory.wf_write (m : Memory) (a : Nat) (v : Word) (hm : m.wf) (ha : a < Config.memCap) : (m.write a v).wf := by
  have hsub : ∀ c ∈ m.filter (fun c => c.1 != a), c ∈ m ∧ c.1 ≠ a := by
    intro c hc
    have := List.mem_filter.1 hc
    exact ⟨this.1, by simpa using this.2⟩
  have hp : (m.filter fun c => c.1 != a).Pairwise fun c d => c.1 < d.1 := hm.1.filter _
  simp only [Memory.write]
  split
  · exact ⟨hp, fun c hc => hm.2 c (hsub c hc).1⟩
  · next hv =>
    refine ⟨Memory.pairwise_insert _ a v hp fun c hc => (hsub c hc).2, fun c hc => ?_⟩
    rcases Memory.mem_insert.1 hc with rfl | hc
    · exact ⟨hv, ha⟩
    · exact hm.2 c (hsub c hc).1

theorem State.reset_mem_wf : State.reset.mem.wf := by decide

end Sys2Proof.Machine
end

