-- ==== Sys2Proof/Laws/State.lean ====
section
/-!
SUPPORT. What each update of the state leaves in each field, and the two's-complement facts a register write rests on.
-/

namespace Sys2Proof.Machine

@[simp] theorem RegFile.read_write (f : RegFile) (r q : RegId) (v : Word) :
    (f.write r v).read q = if q = r then v else f.read q := by
  cases r <;> cases q <;> rfl

@[simp] theorem RegFile.write_read_self (f : RegFile) (r : RegId) : f.write r (f.read r) = f := by
  cases r <;> rfl

@[simp] theorem RegFile.write_write (f : RegFile) (r : RegId) (u v : Word) :
    (f.write r u).write r v = f.write r v := by
  cases r <;> rfl

theorem RegFile.ext_read (f g : RegFile) (h : ∀ r, f.read r = g.read r) : f = g := by
  cases f; cases g
  simp only [RegFile.mk.injEq]
  exact ⟨h .r0, h .r1, h .r2, h .r3, h .r4, h .r5, h .r6, h .r7, h .ip, h .sp⟩

section SetReg
variable (s : State) (r q : RegId) (v : Word)

@[simp] theorem State.setReg_regs : (s.setReg r v).regs = s.regs.write r v := rfl
@[simp] theorem State.setReg_mem : (s.setReg r v).mem = s.mem := rfl
@[simp] theorem State.setReg_engine : (s.setReg r v).engine = s.engine := rfl
@[simp] theorem State.setReg_fault : (s.setReg r v).fault = s.fault := rfl
@[simp] theorem State.setReg_prog : (s.setReg r v).prog = s.prog := rfl

@[simp] theorem State.setReg_reg : (s.setReg r v).reg q = if q = r then v else s.reg q :=
  RegFile.read_write s.regs r q v

theorem State.setReg_val : (s.setReg r v).val q = if q = r then v.toInt else s.val q := by
  simp only [State.val, State.setReg_reg]
  split <;> rfl

@[simp] theorem State.setReg_val_same : (s.setReg r v).val r = v.toInt := by
  simp [State.setReg_val]

@[simp] theorem State.setReg_reg_self : s.setReg r (s.reg r) = s := by
  simp [State.setReg, State.reg]

@[simp] theorem State.setReg_setReg (u : Word) : (s.setReg r u).setReg r v = s.setReg r v := by
  simp [State.setReg]

end SetReg

section SetCell
variable (s : State) (a : Nat) (v : Word)

@[simp] theorem State.setCell_regs : (s.setCell a v).regs = s.regs := rfl
@[simp] theorem State.setCell_mem : (s.setCell a v).mem = s.mem.write a v := rfl
@[simp] theorem State.setCell_engine : (s.setCell a v).engine = s.engine := rfl
@[simp] theorem State.setCell_fault : (s.setCell a v).fault = s.fault := rfl
@[simp] theorem State.setCell_prog : (s.setCell a v).prog = s.prog := rfl
@[simp] theorem State.setCell_reg (r : RegId) : (s.setCell a v).reg r = s.reg r := rfl
@[simp] theorem State.setCell_val (r : RegId) : (s.setCell a v).val r = s.val r := rfl

end SetCell

section Raise
variable (k : FaultKind) (n : Int) (s : State)

@[simp] theorem raise_regs : (raise k n s).regs = s.regs := rfl
@[simp] theorem raise_mem : (raise k n s).mem = s.mem := rfl
@[simp] theorem raise_engine : (raise k n s).engine = .faulted := rfl
@[simp] theorem raise_prog : (raise k n s).prog = s.prog := rfl
@[simp] theorem raise_kind : (raise k n s).fault.kind = k := rfl
@[simp] theorem raise_info : (raise k n s).fault.info = BitVec.ofInt 65 n := rfl
@[simp] theorem raise_ip : (raise k n s).fault.ip = s.reg .ip := rfl
@[simp] theorem raise_reg (r : RegId) : (raise k n s).reg r = s.reg r := rfl
@[simp] theorem raise_val (r : RegId) : (raise k n s).val r = s.val r := rfl

end Raise

section Halt
variable (s : State)

@[simp] theorem haltEngine_regs : (haltEngine s).regs = s.regs := rfl
@[simp] theorem haltEngine_mem : (haltEngine s).mem = s.mem := rfl
@[simp] theorem haltEngine_engine : (haltEngine s).engine = .halted := rfl
@[simp] theorem haltEngine_fault : (haltEngine s).fault = s.fault := rfl
@[simp] theorem haltEngine_prog : (haltEngine s).prog = s.prog := rfl
@[simp] theorem haltEngine_reg (r : RegId) : (haltEngine s).reg r = s.reg r := rfl
@[simp] theorem haltEngine_val (r : RegId) : (haltEngine s).val r = s.val r := rfl

end Halt

section Mem
variable (s : State) (m : Memory)

@[simp] theorem withMem_reg (r : RegId) : State.reg { s with mem := m } r = s.reg r := rfl
@[simp] theorem withMem_val (r : RegId) : State.val { s with mem := m } r = s.val r := rfl

end Mem

section Prog
variable (s : State) (p : List InstrWord)

@[simp] theorem withProg_reg (r : RegId) : State.reg { s with prog := p } r = s.reg r := rfl
@[simp] theorem withProg_val (r : RegId) : State.val { s with prog := p } r = s.val r := rfl

end Prog

/-! ### Two's complement -/

theorem Config.vMin_eq : Config.vMin = -9223372036854775808 := rfl
theorem Config.vMax_eq : Config.vMax = 9223372036854775807 := rfl

/-- What a register holds lies in `Val` (rule R37). -/
theorem inVal_toInt (v : Word) : Config.InVal v.toInt := by
  have h₁ := BitVec.le_toInt v
  have h₂ := @BitVec.toInt_lt 64 v
  simp only [Config.InVal, Config.vMin_eq, Config.vMax_eq]
  omega

theorem State.inVal_val (s : State) (r : RegId) : Config.InVal (s.val r) := inVal_toInt _

/-- A value of `Val` survives being stored. -/
theorem toInt_ofInt_word {v : Int} (h : Config.InVal v) : (BitVec.ofInt 64 v : Word).toInt = v := by
  rw [Config.InVal, Config.vMin_eq, Config.vMax_eq] at h
  exact BitVec.toInt_ofInt_eq_self (by decide) (by omega) (by omega)

theorem State.ofInt_val (s : State) (r : RegId) : (BitVec.ofInt 64 (s.val r) : Word) = s.reg r := by
  simp [State.val]

/-- A 65-bit information value survives being recorded. -/
theorem toInt_ofInt_info {v : Int} (h₁ : -(2 ^ 64) ≤ v) (h₂ : v < 2 ^ 64) :
    (BitVec.ofInt 65 v : InfoWord).toInt = v :=
  BitVec.toInt_ofInt_eq_self (by decide) (by omega) (by omega)

end Sys2Proof.Machine
end

