-- ==== Sys2Proof/Laws/Ops.lean ====
section
/-!
SUPPORT. What each shared operation answers, said once.
-/

namespace Sys2Proof.Machine

/-- A checked register write of a value of `Val` stores it. -/
theorem writeReg_of_inVal (r : RegId) {v : Int} (s : State) (h : Config.InVal v) :
    writeReg r v s = .next (s.setReg r (BitVec.ofInt 64 v)) := by
  simp only [writeReg, if_pos h]

/-- A checked register write of any other value takes ArithmeticOverflow. -/
theorem writeReg_of_not_inVal (r : RegId) {v : Int} (s : State) (h : ¬ Config.InVal v) :
    writeReg r v s = .next (raise .arithmeticOverflow 0 s) := by
  simp only [writeReg, if_neg h]

/-- A register write of a register's own content. -/
theorem writeReg_toInt (r : RegId) (v : Word) (s : State) : writeReg r v.toInt s = .next (s.setReg r v) := by
  rw [writeReg_of_inVal r s (inVal_toInt v), BitVec.ofInt_toInt]

/-- What a checked register write can answer. -/
theorem writeReg_cases {r : RegId} {v : Int} {s t : State} (h : writeReg r v s = .next t) :
    (Config.InVal v ∧ t = s.setReg r (BitVec.ofInt 64 v)) ∨
      (¬ Config.InVal v ∧ t = raise .arithmeticOverflow 0 s) := by
  by_cases hv : Config.InVal v
  · rw [writeReg_of_inVal r s hv] at h
    exact .inl ⟨hv, (Host.Outcome.next.inj h).symm⟩
  · rw [writeReg_of_not_inVal r s hv] at h
    exact .inr ⟨hv, (Host.Outcome.next.inj h).symm⟩

theorem memRead_of_inBounds {ea : Int} (k : Word → State → Result) (s : State) (h : InBounds ea) :
    memRead ea k s = k (s.mem.read ea.toNat) s := by
  simp only [memRead, if_pos h]

theorem memRead_of_not_inBounds {ea : Int} (k : Word → State → Result) (s : State) (h : ¬ InBounds ea) :
    memRead ea k s = .next (raise .outOfBoundsAccess ea s) := by
  simp only [memRead, if_neg h]

theorem memWrite_of_inBounds {ea : Int} (v : Word) (s : State) (h : InBounds ea) :
    memWrite ea v s = .next (s.setCell ea.toNat v) := by
  simp only [memWrite, if_pos h]

theorem memWrite_of_not_inBounds {ea : Int} (v : Word) (s : State) (h : ¬ InBounds ea) :
    memWrite ea v s = .next (raise .outOfBoundsAccess ea s) := by
  simp only [memWrite, if_neg h]

/-- An address inside the memory is a cell number. -/
theorem toNat_lt_memCap {ea : Int} (h : InBounds ea) : ea.toNat < Config.memCap := by
  obtain ⟨h₀, h₁⟩ := h
  omega

/-- A cell number fits the ten bits of `dmem_addr` (rule R141). -/
theorem toNat_ofInt_cell {ea : Int} (h : InBounds ea) : ((BitVec.ofInt 10 ea).toNat : Int) = ea := by
  obtain ⟨h₀, h₁⟩ := h
  rw [BitVec.toNat_ofInt]
  simp only [Config.memCap] at h₁
  omega

/-- The relation of CMP as a value. -/
theorem b2i_inVal (c : Bool) : Config.InVal (b2i c) := by
  cases c <;> decide

end Sys2Proof.Machine
end

