-- ==== Sys2Proof/Laws/Step.lean ====
section
/-!
SUPPORT. What a handler and a step can do, said once: every later fact about an instruction or a step comes from these.
-/

namespace Sys2Proof.Machine

/-! ### The handlers -/

theorem exec_add (a b d : RegId) (s : State) : exec (.add a b d) s = writeReg d (s.val a + s.val b) s := rfl
theorem exec_sub (a b d : RegId) (s : State) : exec (.sub a b d) s = writeReg d (s.val a - s.val b) s := rfl
theorem exec_mul (a b d : RegId) (s : State) : exec (.mul a b d) s = writeReg d (s.val a * s.val b) s := rfl
theorem exec_inc (a : RegId) (s : State) : exec (.inc a) s = writeReg a (s.val a + 1) s := rfl
theorem exec_dec (a : RegId) (s : State) : exec (.dec a) s = writeReg a (s.val a - 1) s := rfl
theorem exec_const (v : Int) (d : RegId) (s : State) : exec (.const v d) s = writeReg d v s := rfl
theorem exec_jmp (r : RegId) (n : Int) (s : State) : exec (.jmp r n) s = writeReg .ip (s.val r + n) s := rfl
theorem exec_halt (s : State) : exec .halt s = .next (haltEngine s) := rfl

theorem exec_cmp (op : CmpOp) (a b d : RegId) (s : State) :
    exec (.cmp op a b d) s = .next (s.setReg d (BitVec.ofInt 64 (b2i (cmpHolds op (s.val a) (s.val b))))) :=
  writeReg_of_inVal d s (b2i_inVal _)

theorem exec_load (rs rd : RegId) (n : Int) (s : State) :
    exec (.load rs rd n) s = memRead (effectiveAddr rs n s) (fun v t => writeReg rd v.toInt t) s := rfl

theorem exec_load_inBounds {rs rd : RegId} {n : Int} {s : State} (h : InBounds (effectiveAddr rs n s)) :
    exec (.load rs rd n) s = .next (s.setReg rd (s.mem.read (effectiveAddr rs n s).toNat)) := by
  rw [exec_load, memRead_of_inBounds _ _ h, writeReg_toInt]

theorem exec_load_outOfBounds {rs rd : RegId} {n : Int} {s : State} (h : ¬ InBounds (effectiveAddr rs n s)) :
    exec (.load rs rd n) s = .next (raise .outOfBoundsAccess (effectiveAddr rs n s) s) := by
  rw [exec_load, memRead_of_not_inBounds _ _ h]

theorem exec_store_inBounds {rs rd : RegId} {n : Int} {s : State} (h : InBounds (effectiveAddr rs n s)) :
    exec (.store rs rd n) s = .next (s.setCell (effectiveAddr rs n s).toNat (s.reg rd)) :=
  memWrite_of_inBounds _ _ h

theorem exec_store_outOfBounds {rs rd : RegId} {n : Int} {s : State} (h : ¬ InBounds (effectiveAddr rs n s)) :
    exec (.store rs rd n) s = .next (raise .outOfBoundsAccess (effectiveAddr rs n s) s) :=
  memWrite_of_not_inBounds _ _ h

theorem exec_jz_taken {g c : RegId} {s : State} (h : s.val c = 0) :
    exec (.jz g c) s = .next (s.setReg .ip (s.reg g)) := by
  show (if isZero (s.val c) then writeReg .ip (s.val g) s else .next s) = _
  rw [if_pos (by simp [isZero, h])]
  exact writeReg_toInt .ip (s.reg g) s

theorem exec_jz_untaken {g c : RegId} {s : State} (h : s.val c ≠ 0) : exec (.jz g c) s = .next s := by
  show (if isZero (s.val c) then writeReg .ip (s.val g) s else .next s) = _
  rw [if_neg (by simp [isZero, h])]

/-! ### Division -/

theorem divide_byZero (mode : Config.DivInexact) (a : Int) : divide mode a 0 = .byZero := by
  simp [divide]

/-- An exact quotient is the answer under every value of `DIV_INEXACT`. -/
theorem divide_exact (mode : Config.DivInexact) {a b q : Int} (hb : b ≠ 0) (h : q * b = a) :
    divide mode a b = .value q := by
  subst h
  simp [divide, hb]

theorem divide_inexact {a b : Int} (hb : b ≠ 0) (h : ¬ ∃ q : Int, q * b = a) :
    divide Config.divInexact a b = .inexact := by
  have hm : a % b ≠ 0 := fun hm =>
    h ⟨a / b, Int.ediv_mul_cancel (Int.dvd_of_emod_eq_zero hm)⟩
  simp [divide, hb, hm, Config.divInexact]

theorem exec_div_byZero {a b d : RegId} {s : State} (h : s.val b = 0) :
    exec (.div a b d) s = .next (raise .divisionByZero 0 s) := by
  show (match divide Config.divInexact (s.val a) (s.val b) with
    | .byZero => _ | .inexact => _ | .value q => _ : Result) = _
  rw [h, divide_byZero]

theorem exec_div_inexact {a b d : RegId} {s : State} (hb : s.val b ≠ 0) (h : ¬ ∃ q : Int, q * s.val b = s.val a) :
    exec (.div a b d) s = .next (raise .inexactDivision 0 s) := by
  show (match divide Config.divInexact (s.val a) (s.val b) with
    | .byZero => _ | .inexact => _ | .value q => _ : Result) = _
  rw [divide_inexact hb h]

theorem exec_div_exact {a b d : RegId} {s : State} {q : Int} (hb : s.val b ≠ 0) (h : q * s.val b = s.val a) :
    exec (.div a b d) s = writeReg d q s := by
  show (match divide Config.divInexact (s.val a) (s.val b) with
    | .byZero => _ | .inexact => _ | .value q => _ : Result) = _
  rw [divide_exact _ hb h]

/-! ### The step -/

theorem step_halted {s : State} (h : s.engine = .halted) : step s = .next s := by
  simp [step, front, h]

theorem step_faulted {s : State} (h : s.engine = .faulted) : step s = .next s := by
  simp [step, front, h]

/-- A Running engine steps by what its fetch answers. -/
theorem step_running {s : State} (h : s.engine = .running) :
    step s = match fetch s with
      | .tooLong => .fault .programTooLong
      | .outOfRange => .next (raise .programCounterOutOfRange (s.val .ip) s)
      | .word w =>
        match decode w with
        | .instr i => exec i (preIncrement s)
        | .fault f => .next (raiseDecode f (preIncrement s)) := by
  simp only [step, front, h]
  cases fetch s with
  | word w => simp only [issueWord]; cases decode w <;> rfl
  | outOfRange => rfl
  | tooLong => rfl

/-- What a fetch answers, case by case (rule R122). -/
theorem fetch_cases (s : State) :
    (Config.vMax < s.prog.length ∧ fetch s = .tooLong) ∨
    ((s.prog.length : Int) ≤ Config.vMax ∧ (s.val .ip < 0 ∨ (s.prog.length : Int) ≤ s.val .ip) ∧ fetch s = .outOfRange) ∨
    ((s.prog.length : Int) ≤ Config.vMax ∧ 0 ≤ s.val .ip ∧ s.val .ip < s.prog.length ∧
      ∃ w, s.prog[(s.val .ip).toNat]? = some w ∧ fetch s = .word w) := by
  unfold fetch
  by_cases hl : Config.vMax < (s.prog.length : Int)
  · simp [hl]
  by_cases hn : s.val .ip < 0
  · simp [hl, hn]
    omega
  rw [if_neg hl, if_neg hn]
  by_cases hr : (s.prog.length : Int) ≤ s.val .ip
  · have : s.prog[(s.val .ip).toNat]? = none := List.getElem?_eq_none (by omega)
    simp only [this]
    exact .inr (.inl ⟨by omega, .inr hr, trivial⟩)
  · have : s.prog[(s.val .ip).toNat]? = some (s.prog[(s.val .ip).toNat]'(by omega)) := List.getElem?_eq_getElem (by omega)
    simp only [this]
    exact .inr (.inr ⟨by omega, by omega, by omega, _, rfl, rfl⟩)

/-- The pre-increment adds one to the value of IP when the fetch was in range. -/
theorem preIncrement_val {s : State} (h : s.val .ip < Config.vMax) : (preIncrement s).val .ip = s.val .ip + 1 := by
  have := s.inVal_val .ip
  simp only [preIncrement, State.setReg_val_same]
  exact toInt_ofInt_word ⟨by omega, by omega⟩

@[simp] theorem preIncrement_mem (s : State) : (preIncrement s).mem = s.mem := rfl
@[simp] theorem preIncrement_engine (s : State) : (preIncrement s).engine = s.engine := rfl
@[simp] theorem preIncrement_fault (s : State) : (preIncrement s).fault = s.fault := rfl
@[simp] theorem preIncrement_prog (s : State) : (preIncrement s).prog = s.prog := rfl

theorem preIncrement_reg {s : State} {r : RegId} (h : r ≠ .ip) : (preIncrement s).reg r = s.reg r := by
  simp [preIncrement, h]

/-! ### Placing a word for the host -/

theorem placeWord_get (p : List InstrWord) (n : Nat) (w : InstrWord) : (placeWord p n w)[n]? = some w := by
  induction n generalizing p with
  | zero => cases p <;> rfl
  | succ n ih => cases p <;> exact ih _

theorem placeWord_length (p : List InstrWord) (n : Nat) (w : InstrWord) :
    (placeWord p n w).length = max p.length (n + 1) := by
  induction n generalizing p with
  | zero => cases p <;> simp [placeWord]
  | succ n ih => cases p <;> simp [placeWord, ih]

/-- A word placed at IP is the word the next step fetches. -/
theorem fetch_placeAtIp (w : InstrWord) (s : State) (h : (s.prog.length : Int) ≤ Config.vMax) :
    (placeAtIp w s).engine = .running ∧ fetch (placeAtIp w s) = .word w := by
  refine ⟨rfl, ?_⟩
  obtain ⟨slot, hslot, h₀, h₁⟩ : ∃ slot : Int,
      slot = (if 0 ≤ s.val .ip ∧ s.val .ip < Config.vMax then s.val .ip else 0) ∧ 0 ≤ slot ∧ slot < Config.vMax := by
    refine ⟨_, rfl, ?_, ?_⟩ <;> split <;> first | omega | decide
  have hval : (placeAtIp w s).val .ip = slot := by
    show (((s.setReg .ip (BitVec.ofInt 64 _)).reg .ip).toInt) = slot
    rw [← hslot, State.setReg_reg, if_pos rfl]
    exact toInt_ofInt_word ⟨by rw [Config.vMin_eq]; omega, by omega⟩
  have hprog : (placeAtIp w s).prog = placeWord s.prog slot.toNat w := by
    rw [hslot]; rfl
  have hlen : ¬ Config.vMax < ((placeWord s.prog slot.toNat w).length : Int) := by
    rw [placeWord_length]; omega
  simp only [fetch, hval, hprog, placeWord_get, if_neg hlen, if_neg (show ¬ slot < 0 by omega)]

end Sys2Proof.Machine
end

