-- ==== Sys2Proof/Laws/Exec.lean ====
section
/-!
SUPPORT. Everything a handler can do, in one lemma: it writes the one register it reports, or one cell, or halts, or (an untaken
JZ) does nothing, or takes one of its faults.
-/

namespace Sys2Proof.Machine

/-- The ways a handler can end. -/
inductive HandlerDid (i : Instr) (s : State) : State → Prop where
  | wrote (d : RegId) (v : Word) (h : regWritten i s = some d) : HandlerDid i s (s.setReg d v)
  | stored (rs rd : RegId) (off : Int) (h : i = .store rs rd off) (hb : InBounds (effectiveAddr rs off s)) :
    HandlerDid i s (s.setCell (effectiveAddr rs off s).toNat (s.reg rd))
  | halted (h : i = .halt) : HandlerDid i s (haltEngine s)
  | untaken (g c : RegId) (h : i = .jz g c) (hc : s.val c ≠ 0) : HandlerDid i s s
  | badAddress (rs rd : RegId) (off : Int) (h : i = .load rs rd off ∨ i = .store rs rd off)
    (hb : ¬ InBounds (effectiveAddr rs off s)) :
    HandlerDid i s (raise .outOfBoundsAccess (effectiveAddr rs off s) s)
  | faulted (k : FaultKind) (hk : k = .arithmeticOverflow ∨ k = .divisionByZero ∨ k = .inexactDivision)
    (hm : i.WellFormed → MayRaise i k) : HandlerDid i s (raise k 0 s)

theorem writeReg_handler {i : Instr} {r : RegId} {v : Int} {s t : State} (hr : regWritten i s = some r)
    (hm : i.WellFormed → MayRaise i .arithmeticOverflow ∨ Config.InVal v) (h : writeReg r v s = .next t) :
    HandlerDid i s t := by
  obtain ⟨-, rfl⟩ | ⟨hv, rfl⟩ := writeReg_cases h
  · exact .wrote r _ hr
  · exact .faulted _ (.inl rfl) fun hw => (hm hw).resolve_right hv

/-- Everything a handler can do. -/
theorem exec_cases {i : Instr} {s t : State} (h : exec i s = .next t) : HandlerDid i s t := by
  cases i with
  | add a b d => exact writeReg_handler rfl (fun _ => .inl rfl) h
  | sub a b d => exact writeReg_handler rfl (fun _ => .inl rfl) h
  | mul a b d => exact writeReg_handler rfl (fun _ => .inl rfl) h
  | inc a => exact writeReg_handler rfl (fun _ => .inl rfl) h
  | dec a => exact writeReg_handler rfl (fun _ => .inl rfl) h
  | jmp r n => exact writeReg_handler rfl (fun _ => .inl rfl) h
  | const v d => exact writeReg_handler rfl .inr h
  | div a b d =>
    by_cases hb : s.val b = 0
    · rw [exec_div_byZero hb] at h
      cases h
      exact .faulted _ (.inr (.inl rfl)) fun _ => .inl rfl
    by_cases hq : ∃ q : Int, q * s.val b = s.val a
    · obtain ⟨q, hq⟩ := hq
      rw [exec_div_exact hb hq] at h
      exact writeReg_handler rfl (fun _ => .inl (.inr (.inr rfl))) h
    · rw [exec_div_inexact hb hq] at h
      cases h
      exact .faulted _ (.inr (.inr rfl)) fun _ => .inr (.inl rfl)
  | cmp op a b d =>
    rw [exec_cmp] at h
    cases h
    exact .wrote d _ rfl
  | load rs rd n =>
    by_cases hb : InBounds (effectiveAddr rs n s)
    · rw [exec_load_inBounds hb] at h
      cases h
      exact .wrote rd _ rfl
    · rw [exec_load_outOfBounds hb] at h
      cases h
      exact .badAddress rs rd n (.inl rfl) hb
  | store rs rd n =>
    by_cases hb : InBounds (effectiveAddr rs n s)
    · rw [exec_store_inBounds hb] at h
      cases h
      exact .stored rs rd n rfl hb
    · rw [exec_store_outOfBounds hb] at h
      cases h
      exact .badAddress rs rd n (.inr rfl) hb
  | jz g c =>
    by_cases hc : s.val c = 0
    · rw [exec_jz_taken hc] at h
      cases h
      exact .wrote .ip _ (by simp [regWritten, isZero, hc])
    · rw [exec_jz_untaken hc] at h
      cases h
      exact .untaken g c rfl hc
  | halt =>
    cases h
    exact .halted rfl

end Sys2Proof.Machine
end

