-- ==== Sys2Proof/Laws/PerInstr.lean ====
section
/-!
SUPPORT. One lemma per constructor: the encoding of a record carries its opcode's number in `w[95:88]` and leaves `rsv` zero
(spec 30_encoding rules R82, R92).
-/

namespace Sys2Proof.Laws.OpcodeField

/-- The encoded word's opcode byte is the opcode's number of rule R87, and its reserved byte is 0. -/
def Statement (i : Instr) : Prop := (encode i).opcode = i.opcode.code ∧ (encode i).rsv = 0

theorem add (a b dst : RegId) : Statement (.add a b dst) := ⟨packWord_opcode .., packWord_rsv ..⟩
theorem sub (a b dst : RegId) : Statement (.sub a b dst) := ⟨packWord_opcode .., packWord_rsv ..⟩
theorem mul (a b dst : RegId) : Statement (.mul a b dst) := ⟨packWord_opcode .., packWord_rsv ..⟩
theorem div (a b dst : RegId) : Statement (.div a b dst) := ⟨packWord_opcode .., packWord_rsv ..⟩
theorem inc (a : RegId) : Statement (.inc a) := ⟨packWord_opcode .., packWord_rsv ..⟩
theorem dec (a : RegId) : Statement (.dec a) := ⟨packWord_opcode .., packWord_rsv ..⟩
theorem cmp (op : CmpOp) (a b dst : RegId) : Statement (.cmp op a b dst) := ⟨packWord_opcode .., packWord_rsv ..⟩
theorem const (value : Int) (dst : RegId) : Statement (.const value dst) := ⟨packWord_opcode .., packWord_rsv ..⟩
theorem load (rs rd : RegId) (offset : Int) : Statement (.load rs rd offset) := ⟨packWord_opcode .., packWord_rsv ..⟩
theorem store (rs rd : RegId) (offset : Int) : Statement (.store rs rd offset) := ⟨packWord_opcode .., packWord_rsv ..⟩
theorem jmp (reg : RegId) (offset : Int) : Statement (.jmp reg offset) := ⟨packWord_opcode .., packWord_rsv ..⟩
theorem jz (target test : RegId) : Statement (.jz target test) := ⟨packWord_opcode .., packWord_rsv ..⟩
theorem halt : Statement .halt := ⟨packWord_opcode .., packWord_rsv ..⟩

end Sys2Proof.Laws.OpcodeField
end

