-- ==== Sys2Proof/Laws/Run.lean ====
section
/-!
SUPPORT. What one step and a run of several can do: the inversion lemma every invariant follows from.
-/

namespace Sys2Proof.Machine

/-- IP stands inside the Program when a word is fetched. -/
theorem AtWord.ip_lt {s : State} {w : InstrWord} (h : AtWord s w) : s.val .ip < s.prog.length := by
  obtain ⟨hl, -⟩ := List.getElem?_eq_some_iff.1 h.word
  have := h.nonneg
  omega

theorem AtWord.fetch_eq {s : State} {w : InstrWord} (h : AtWord s w) : fetch s = .word w := by
  have hlt := h.ip_lt
  have hle := h.bounded
  have h₀ := h.nonneg
  obtain ⟨_, -⟩ | ⟨-, _, -⟩ | ⟨-, -, -, v, hv, hf⟩ := fetch_cases s
  · omega
  · omega
  · rw [h.word] at hv
    exact hf.trans (congrArg Fetched.word (Option.some.inj hv).symm)

/-- The front of a step at a word hands the word on. -/
theorem AtWord.front_eq {s : State} {w : InstrWord} (h : AtWord s w) : front s = issueWord w s := by
  simp only [front, h.running, h.fetch_eq]

/-- A step at a word, by what the word decodes to. -/
theorem AtWord.step_eq {s : State} {w : InstrWord} (h : AtWord s w) :
    step s = match decode w with
      | .instr i => exec i (preIncrement s)
      | .fault f => .next (raiseDecode f (preIncrement s)) := by
  cases hd : decode w <;> simp only [step_running h.running, h.fetch_eq, hd]

/-- The value of IP the handler sees. -/
theorem AtWord.preIncrement_ip {s : State} {w : InstrWord} (h : AtWord s w) :
    (preIncrement s).val .ip = s.val .ip + 1 := by
  have := h.ip_lt
  have := h.bounded
  exact preIncrement_val (by omega)

/-- The word just before the incremented IP is the word fetched. -/
theorem AtWord.wordBefore_eq {s : State} {w : InstrWord} (h : AtWord s w) :
    wordBefore s.prog ((preIncrement s).val .ip) = some w := by
  rw [h.preIncrement_ip, wordBefore, Int.add_sub_cancel]
  exact h.word

/-- A decode fault is recorded under its kind. -/
theorem raiseDecode_eq (d : DecodeFault) (s : State) : raiseDecode d s = raise (decodeFaultKind d) (decodeFaultInfo d) s := by
  cases d <;> rfl

/-- Everything a step that answers a next state can do. -/
theorem step_cases {s t : State} (h : step s = .next t) :
    (s.engine ≠ .running ∧ t = s) ∨
    (s.engine = .running ∧ (s.prog.length : Int) ≤ Config.vMax ∧
      (s.val .ip < 0 ∨ (s.prog.length : Int) ≤ s.val .ip) ∧ t = raise .programCounterOutOfRange (s.val .ip) s) ∨
    (∃ w f, AtWord s w ∧ decode w = .fault f ∧ t = raiseDecode f (preIncrement s)) ∨
    (∃ w i, AtWord s w ∧ decode w = .instr i ∧ exec i (preIncrement s) = .next t) := by
  cases he : s.engine with
  | halted =>
    rw [step_halted he] at h
    exact .inl ⟨by simp, (Host.Outcome.next.inj h).symm⟩
  | faulted =>
    rw [step_faulted he] at h
    exact .inl ⟨by simp, (Host.Outcome.next.inj h).symm⟩
  | running =>
    obtain ⟨-, hf⟩ | ⟨hb, hr, hf⟩ | ⟨hb, h₀, -, w, hw, -⟩ := fetch_cases s
    · simp [step_running he, hf] at h
    · rw [step_running he, hf] at h
      exact .inr (.inl ⟨rfl, hb, hr, (Host.Outcome.next.inj h).symm⟩)
    · have ha : AtWord s w := ⟨he, hb, h₀, hw⟩
      rw [ha.step_eq] at h
      cases hd : decode w with
      | instr i =>
        rw [hd] at h
        exact .inr (.inr (.inr ⟨w, i, ha, hd, h⟩))
      | fault f =>
        rw [hd] at h
        exact .inr (.inr (.inl ⟨w, f, ha, hd, (Host.Outcome.next.inj h).symm⟩))

/-! ### Runs of several steps -/

theorem run_zero (s : State) : core.run 0 s = .next s := rfl

theorem run_succ_next (n : Nat) {s t : State} (h : step s = .next t) : core.run (n + 1) s = core.run n t := by
  have h : core.step s = .next t := h
  simp only [Host.Core.run, h]

theorem run_succ_fault (n : Nat) {s : State} {f : Fault} (h : step s = .fault f) : core.run (n + 1) s = .fault f := by
  have h : core.step s = .fault f := h
  simp only [Host.Core.run, h]

/-- A run of one more step that answers a next state: its first step does. -/
theorem run_succ_cases {n : Nat} {s t : State} (h : core.run (n + 1) s = .next t) :
    ∃ u, step s = .next u ∧ core.run n u = .next t := by
  cases hs : step s with
  | next u => exact ⟨u, rfl, run_succ_next n hs ▸ h⟩
  | fault f => exact absurd (run_succ_fault n hs ▸ h) (by simp)
  | refused r =>
    have hs : core.step s = .refused r := hs
    simp [Host.Core.run, hs] at h

end Sys2Proof.Machine
end

