-- ==== Sys2Proof/Tests/Slice0.lean ====
section
/-!
SUPPORT. The model's own tests. Expected results come from spec/95_test_vectors.md, from the worked examples and corner cases of
files 41 to 45, or from the rule named; each runs one step on a small state. The witnesses show that the statements'
hypotheses can be met, clause by clause.
-/

namespace Sys2Proof.Tests

open Sys2Proof Sys2Proof.Machine

/-! ### Small states and what a step leaves -/

/-- A Running machine at index 0 of a one-word Program, with R0 and R1 given. -/
def oneWord (w : InstrWord) (r0 r1 : Int) : State :=
  { State.reset with
    regs := { RegFile.reset with r0 := BitVec.ofInt 64 r0, r1 := BitVec.ofInt 64 r1 }
    prog := [w] }

/-- The value of a register after one step, when the engine is still Running. -/
def regAfter (s : State) (r : RegId) : Option Int :=
  match step s with
  | .next t => if t.engine = .running then some (t.val r) else none
  | _ => none

/-- The fault record after one step, when the engine is Faulted: kind, information value, IP. -/
def faultAfter (s : State) : Option (FaultKind × Int × Int) :=
  match step s with
  | .next t => if t.engine = .faulted then some (t.fault.kind, t.fault.info.toInt, t.fault.ip.toInt) else none
  | _ => none

/-- A cell after one step, as a signed integer. -/
def cellAfter (s : State) (a : Nat) : Option Int :=
  match step s with
  | .next t => some (t.mem.read a).toInt
  | _ => none

/-! ### Well-formedness: a literal outside `Val` has no encoding (rules R84, R92; U18) -/

theorem test_const_literal_too_great : ¬ (Instr.const (2 ^ 63) .r0).WellFormed := by decide
theorem test_load_offset_too_small : ¬ (Instr.load .r0 .r1 (-(2 ^ 63) - 1)).WellFormed := by decide
theorem test_store_offset_too_great : ¬ (Instr.store .r0 .r1 (2 ^ 63)).WellFormed := by decide
theorem test_jmp_offset_too_small : ¬ (Instr.jmp .r0 (-(2 ^ 63) - 1)).WellFormed := by decide
theorem test_const_vmax_well_formed : (Instr.const (2 ^ 63 - 1) .r0).WellFormed := by decide
theorem test_const_vmin_well_formed : (Instr.const (-(2 ^ 63)) .r0).WellFormed := by decide

/-! ### The parameters of rule R6 -/

theorem test_parameters : Config.vMin = -(2 ^ 63) ∧ Config.vMax = 2 ^ 63 - 1 ∧ Config.memCap = 1024 ∧
    Config.xlen = 64 ∧ Config.ilen = 96 ∧ Config.nReg = Config.nGpr + 2 ∧ 2 ^ Config.regIdW = 16 := by decide

/-! ### Decode, from words the spec writes out (files 41 to 45, 95_test_vectors) -/

/-- R152 -/
theorem test_decode_add : decode 0x010120000000000000000000#96 = .instr (.add .r0 .r1 .r2) := by decide

/-- R153 -/
theorem test_decode_sub : decode 0x020120000000000000000000#96 = .instr (.sub .r0 .r1 .r2) := by decide

/-- R154 -/
theorem test_decode_mul : decode 0x030030000000000000000000#96 = .instr (.mul .r0 .r0 .r3) := by decide

/-- P3 -/
theorem test_decode_div : decode 0x040340000000000000000000#96 = .instr (.div .r0 .r3 .r4) := by decide

/-- V-ST-3 -/
theorem test_decode_inc : decode 0x059000000000000000000000#96 = .instr (.inc .sp) := by decide

/-- R159 -/
theorem test_decode_dec : decode 0x060000000000000000000000#96 = .instr (.dec .r0) := by decide

/-- V-CMP-1 -/
theorem test_decode_cmp : decode 0x071145000000000000000000#96 = .instr (.cmp .ne .r1 .r1 .r4) := by decide

/-- R173 -/
theorem test_decode_const : decode 0x08300000FFFFFFFFFFFFFFFF#96 = .instr (.const (-1) .r3) := by decide

/-- P2 -/
theorem test_decode_load : decode 0x097400000000000000000067#96 = .instr (.load .r7 .r4 103) := by decide

/-- P4 -/
theorem test_decode_store : decode 0x0A420000FFFFFFFFFFFFFFFE#96 = .instr (.store .r4 .r2 (-2)) := by decide

/-- V-JMP-5 -/
theorem test_decode_jmp : decode 0x0B800000FFFFFFFFFFFFFFFF#96 = .instr (.jmp .ip (-1)) := by decide

/-- P2 -/
theorem test_decode_jz : decode 0x0C6200000000000000000000#96 = .instr (.jz .r6 .r2) := by decide

/-- R201 -/
theorem test_decode_halt : decode 0x0D0000000000000000000000#96 = .instr .halt := by decide

/-- V-ADD-2 -/
theorem test_decode_const_vmin : decode 0x081000008000000000000000#96 = .instr (.const (-9223372036854775808) .r1) := by decide

/-- V-CONST-2 -/
theorem test_decode_const_to_ip : decode 0x088000000000000000000003#96 = .instr (.const 3 .ip) := by decide

/-- V-DEC-6 -/
theorem test_decode_ignored_bits : decode 0x050FFFFF00000000DEADBEEF#96 = .instr (.inc .r0) := by decide

/-- V-DEC-1 -/
theorem test_decode_zero_word : decode 0x000000000000000000000000#96 = .fault (.unsupportedInstruction 0) := by decide

/-- V-DEC-2 -/
theorem test_decode_opcode_before_registers : decode 0xFFFFF0000000000000000000#96 = .fault (.unsupportedInstruction 0xFF) := by decide

/-- V-DEC-3 -/
theorem test_decode_unknown_f2 : decode 0x010A20000000000000000000#96 = .fault (.unknownRegister 10) := by decide

/-- V-DEC-4 -/
theorem test_decode_f1_before_f3 : decode 0x01C1B0000000000000000000#96 = .fault (.unknownRegister 12) := by decide

/-- V-DEC-5 -/
theorem test_decode_register_before_operator : decode 0x07A009000000000000000000#96 = .fault (.unknownRegister 10) := by decide

/-- E5 -/
theorem test_decode_unknown_operator : decode 0x070126000000000000000000#96 = .fault (.unsupportedOperator 6) := by decide

/-- V-JZ-3 -/
theorem test_decode_unread_target_checked : decode 0x0CC100000000000000000000#96 = .fault (.unknownRegister 12) := by decide

/-- R88 -/
theorem test_decode_opcode_0e : decode 0x0E0000000000000000000000#96 = .fault (.unsupportedInstruction 0x0E) := by decide


/-! ### Encode: the canonical words of the same examples -/

/-- R171 -/
theorem test_encode_cmp : encode (.cmp .ge .r0 .r1 .r2) = 0x070123000000000000000000#96 := by decide

/-- V-MUL-3 -/
theorem test_encode_const : encode (.const (-4294967296) .r0) = 0x08000000FFFFFFFF00000000#96 := by decide

/-- V-ST-2 -/
theorem test_encode_store : encode (.store .r0 .r1 (-5)) = 0x0A010000FFFFFFFFFFFFFFFB#96 := by decide

/-- R192 -/
theorem test_encode_jz : encode (.jz .r2 .r0) = 0x0C2000000000000000000000#96 := by decide

/-- R201 -/
theorem test_encode_halt : encode (.halt) = 0x0D0000000000000000000000#96 := by decide


/-- E1's first words; and entry U18, a literal outside 64 bits is refused at load. -/
theorem test_assemble : assemble [.const 10 .r0, .const 20 .r1] = some [0x08000000000000000000000A, 0x081000000000000000000014] ∧
    assemble [.halt, .const (2 ^ 63) .r0] = none := by decide

/-- Decision D23: twelve bytes a word, most significant first. -/
theorem test_image_bytes : wordsOfImage (bytesOfWord 0x010120000000000000000000#96) = some [0x010120000000000000000000#96] ∧
    (bytesOfWord 0x010120000000000000000000#96).head? = some 0x01 ∧ wordsOfImage [0x01] = none := by decide

/-! ### One step of each instruction -/

/-- V-ADD-2 -/
theorem test_step_add_extremes : regAfter (oneWord 0x010120000000000000000000 9223372036854775807 (-9223372036854775808)) .r2 = some (-1) := by decide

/-- V-SUB-2 -/
theorem test_step_sub_negative : regAfter (oneWord 0x020120000000000000000000 3 7) .r2 = some (-4) := by decide

/-- V-MUL-3 -/
theorem test_step_mul_reaches_vmin : regAfter (oneWord 0x030120000000000000000000 (-4294967296) 2147483648) .r2 = some (-9223372036854775808) := by decide

/-- V-MUL-4 -/
theorem test_step_mul_signs : regAfter (oneWord 0x030120000000000000000000 (-4) (-5)) .r2 = some 20 := by decide

/-- V-DIV-7 -/
theorem test_step_div_negative : regAfter (oneWord 0x040120000000000000000000 (-6) 3) .r2 = some (-2) := by decide

/-- R158 -/
theorem test_step_inc_ip_skips : regAfter (oneWord 0x058000000000000000000000 0 0) .ip = some 2 := by decide

/-- R158 -/
theorem test_step_inc : regAfter (oneWord 0x050000000000000000000000 3 0) .r0 = some 4 := by decide

/-- V-DEC-0 -/
theorem test_step_dec_below_zero : regAfter (oneWord 0x060000000000000000000000 0 0) .r0 = some (-1) := by decide

/-- V-CMP-1 -/
theorem test_step_cmp_signed_less : regAfter (oneWord 0x070120000000000000000000 (-1) 0) .r2 = some 1 := by decide

/-- R171 -/
theorem test_step_cmp_ge_fails : regAfter (oneWord 0x070123000000000000000000 3 5) .r2 = some 0 := by decide

/-- V-CONST-2 -/
theorem test_step_const_to_ip : regAfter (oneWord 0x088000000000000000000003 0 0) .ip = some 3 := by decide

/-- V-CONST-1 -/
theorem test_step_const_negative : regAfter (oneWord 0x08300000FFFFFFFFFFFFFFFF 0 0) .r3 = some (-1) := by decide

/-- V-LD-1 -/
theorem test_step_load_unwritten : regAfter (oneWord 0x090100000000000000000000 1023 9) .r1 = some 0 := by decide

/-- R191 -/
theorem test_step_jmp_absolute : regAfter (oneWord 0x0B3000000000000000000004 0 0) .ip = some 4 := by decide

/-- V-JZ-1 -/
theorem test_step_jz_taken : regAfter (oneWord 0x0C0100000000000000000000 4 0) .ip = some 4 := by decide

/-- V-JZ-2 -/
theorem test_step_jz_minus_one_untaken : regAfter (oneWord 0x0C0100000000000000000000 4 (-1)) .ip = some 1 := by decide

/-- V-ADD-1 -/
theorem test_step_add_overflow : faultAfter (oneWord 0x010120000000000000000000 9223372036854775807 1) = some (.arithmeticOverflow, 0, 1) := by decide

/-- V-SUB-1 -/
theorem test_step_sub_overflow : faultAfter (oneWord 0x020120000000000000000000 0 (-9223372036854775808)) = some (.arithmeticOverflow, 0, 1) := by decide

/-- V-DIV-3 -/
theorem test_step_div_zero_by_zero : faultAfter (oneWord 0x040120000000000000000000 0 0) = some (.divisionByZero, 0, 1) := by decide

/-- V-DEC-m -/
theorem test_step_dec_overflow : faultAfter (oneWord 0x060000000000000000000000 (-9223372036854775808) 0) = some (.arithmeticOverflow, 0, 1) := by decide

/-- V-LD-2 -/
theorem test_step_load_past_the_end : faultAfter (oneWord 0x090100000000000000000001 1023 0) = some (.outOfBoundsAccess, 1024, 1) := by decide

/-- V-ST-1 -/
theorem test_step_store_exact_address : faultAfter (oneWord 0x0A0000007FFFFFFFFFFFFFFF 9223372036854775807 0) = some (.outOfBoundsAccess, 18446744073709551614, 1) := by decide

/-- V-JMP-4 -/
theorem test_step_jmp_overflow : faultAfter (oneWord 0x0B0000000000000000000001 9223372036854775807 0) = some (.arithmeticOverflow, 0, 1) := by decide


/-- V-ST-2: a negative offset, a negative value. -/
theorem test_step_store : cellAfter (oneWord 0x0A010000FFFFFFFFFFFFFFFB 5 (-9)) 0 = some (-9) := by decide

/-- V-HALT-1: HALT as the last word: Halted with IP = `PROG_LEN`, no fault. -/
theorem test_step_halt : (match step (oneWord 0x0D0000000000000000000000 0 0) with
    | .next t => (t.engine, t.val .ip, t.fault) | _ => (.running, 0, FaultRecord.clear)) =
    (.halted, 1, FaultRecord.clear) := by decide

/-- V-DIV-1, V-DIV-1n: the other values of `DIV_INEXACT`. -/
theorem test_div_modes : divide .trunc 7 2 = .value 3 ∧ divide .floor 7 2 = .value 3 ∧
    divide .trunc (-7) 2 = .value (-3) ∧ divide .floor (-7) 2 = .value (-4) := by decide

/-- V-FET-1: the empty Program faults at the first fetch. -/
theorem test_step_empty_program : faultAfter (startRun []) = some (.programCounterOutOfRange, 0, 0) := by decide

/-- V-JMP-3's last step: a negative IP is out of range. -/
theorem test_step_negative_ip :
    faultAfter ((oneWord 0x0D0000000000000000000000 0 0).setReg .ip (-3)) = some (.programCounterOutOfRange, -3, -3) := by
  decide

/-- V-FET-1 as a run under a step budget, and rule R275's third result. -/
theorem test_run_under : runUnder 1 (startRun []) = .ended (.faulted .programCounterOutOfRange 0 0) ∧
    runUnder 0 (startRun []) = .exhausted (startRun []) := by decide

/-! ### Memory, placing a word, the ports -/

/-- Writing what an unlisted cell reads as removes the entry; entries stand in rising order. -/
theorem test_memory_canonical : Memory.write [(3, 1), (8, 2)] 3 0 = [(8, 2)] ∧
    Memory.write [(3, 1), (8, 2)] 5 7 = [(3, 1), (5, 7), (8, 2)] ∧ ¬ Memory.wf [(8, 2), (3, 1)] ∧
    ¬ Memory.wf [(3, 0)] ∧ ¬ Memory.wf [(1024, 1)] := by decide

/-- The host's word is the first instruction after reset. -/
theorem test_with_fetch_word :
    regAfter (State.reset.withFetchWord 96 0x08000000000000000000000A) .r0 = some 10 ∧
    decodeTableWord 96 0x0D0000000000000000000000 = some .halt ∧ decodeTableWord 96 0 = none := by decide

/-- A word placed at a later index leaves the words before it and IP alone. -/
theorem test_with_fetch_word_later :
    ((oneWord 0x0D0000000000000000000000 0 0).setReg .ip 2).withFetchWord 96 0x050000000000000000000000 =
      { (oneWord 0x0D0000000000000000000000 0 0).setReg .ip 2 with
        prog := [0x0D0000000000000000000000, 0, 0x050000000000000000000000] } := by decide

/-- Rules R140, R141: the data-memory access and the trace event of a STORE and of a taken JZ. -/
theorem test_ports :
    portDmem (oneWord 0x0A0100000000000000000003 5 42) = some { addr := 8, we := true, wdata := some 42 } ∧
    traceEvent (oneWord 0x0A0100000000000000000003 5 42) =
      some { ip := 0, word := 0x0A0100000000000000000003, write := none } ∧
    traceEvent (oneWord 0x0C0100000000000000000000 4 0) =
      some { ip := 0, word := 0x0C0100000000000000000000, write := some (8, 4) } ∧
    traceEvent (oneWord 0x040120000000000000000000 7 2) = none := by decide

/-! ### Witnesses: the hypotheses of each statement can be met, clause by clause -/

/-- A one-word state stands at its word. -/
theorem atWord_oneWord (w : InstrWord) (a b : Int) : AtWord (oneWord w a b) w :=
  ⟨rfl, by show (1 : Int) ≤ Config.vMax; decide, by show (0 : Int) ≤ (0 : Word).toInt; decide, rfl⟩

theorem inv_oneWord (w : InstrWord) (a b : Int) : (oneWord w a b).Inv :=
  ⟨by show Memory.wf []; decide, (atWord_oneWord w a b).bounded, rfl⟩

theorem witness_RunStartsAtIndexZero : (([0] : List InstrWord).length : Int) ≤ Config.vMax := by decide

theorem witness_StepKeepsTheInvariant : (oneWord 0x0D0000000000000000000000 0 0).Inv ∧
    step (oneWord 0x0D0000000000000000000000 0 0) =
      .next (haltEngine ((oneWord 0x0D0000000000000000000000 0 0).setReg .ip 1)) :=
  ⟨inv_oneWord _ _ _, rfl⟩

/-- The invariant holds in a Halted state, just after its HALT, and fails in one whose IP follows another word. -/
theorem witness_StepKeepsTheInvariant_halted :
    (haltEngine ((oneWord 0x0D0000000000000000000000 0 0).setReg .ip 1)).Inv ∧
    ¬ (haltEngine ((oneWord 0x050000000000000000000000 0 0).setReg .ip 1)).Inv := by
  refine ⟨⟨by show Memory.wf []; decide, (atWord_oneWord _ 0 0).bounded, rfl, by decide, _, rfl, by decide⟩, ?_⟩
  rintro ⟨-, -, -, -, w, hw, hd⟩
  cases hw
  exact absurd hd (by decide)

/-- The invariant holds in a Faulted state whose record the word before its IP raised, and fails in one it could not raise. -/
theorem witness_StepKeepsTheInvariant_faulted :
    (raise .divisionByZero 0 (preIncrement (oneWord 0x040120000000000000000000 7 0))).Inv ∧
    ¬ (raise .divisionByZero 0 (preIncrement (oneWord 0x050000000000000000000000 7 0))).Inv := by
  refine ⟨⟨by show Memory.wf []; decide, (atWord_oneWord _ 0 0).bounded, by decide, rfl, ⟨rfl, by decide, by decide⟩,
    .inr ⟨_, rfl, .inr ⟨.div .r0 .r1 .r2, by decide, .inl rfl⟩⟩⟩, ?_⟩
  have hi : decode 0x050000000000000000000000 = .instr (.inc .r0) := by decide
  rintro ⟨-, -, -, -, -, h | ⟨w, hw, ⟨d, hd, -⟩ | ⟨i, hd, hm⟩⟩⟩
  · exact absurd h (by decide)
  · cases hw
    cases hi.symm.trans hd
  · cases hw
    cases hi.symm.trans hd
    exact absurd (show FaultKind.divisionByZero = .arithmeticOverflow from hm) (by decide)

theorem witness_StepAnswersWithinTheProgramBound : ((oneWord 0 0 0).prog.length : Int) ≤ Config.vMax := by decide

/-- A Program one word longer than the bound exists. -/
theorem witness_OverlongProgramStopsTheStep : ∃ s : State, s.engine = .running ∧ Config.vMax < (s.prog.length : Int) :=
  ⟨{ State.reset with prog := List.replicate (2 ^ 63) 0 }, rfl, by
    show Config.vMax < ((List.replicate (2 ^ 63) (0 : InstrWord)).length : Int)
    rw [List.length_replicate]
    decide⟩

theorem witness_HaltedAndFaultedAbsorb : (haltEngine State.reset).engine ≠ .running ∧
    (raise .divisionByZero 0 State.reset).engine ≠ .running := by decide

/-- Both clauses at their edges: IP one below the range, one past it, and at its two ends. -/
theorem witness_FetchChecksTheRange :
    ((oneWord 0 0 0).engine = .running ∧ ((oneWord 0 0 0).prog.length : Int) ≤ Config.vMax) ∧
    ((oneWord 0 0 0).setReg .ip (-1)).val .ip < 0 ∧
    ((oneWord 0 0 0).prog.length : Int) ≤ ((oneWord 0 0 0).setReg .ip 1).val .ip ∧
    0 ≤ (oneWord 0 0 0).val .ip ∧ (oneWord 0 0 0).val .ip < ((oneWord 0 0 0).prog.length : Int) := by decide

theorem witness_StepRunsTheDecodedInstruction :
    AtWord (oneWord 0x050000000000000000000000 0 0) 0x050000000000000000000000 ∧
    decode 0x050000000000000000000000 = .instr (.inc .r0) :=
  ⟨atWord_oneWord _ _ _, by decide⟩

/-- Both edges of the illegal opcodes: 0x00 and 0x0E. -/
theorem witness_UnknownOpcodeFaultsAfterThePreIncrement :
    (AtWord (oneWord 0 0 0) 0 ∧ (InstrWord.opcode 0).toNat < 0x01) ∧
    AtWord (oneWord 0x0E0000000000000000000000 0 0) 0x0E0000000000000000000000 ∧
    0x0D < (InstrWord.opcode 0x0E0000000000000000000000).toNat :=
  ⟨⟨atWord_oneWord _ _ _, by decide⟩, atWord_oneWord _ _ _, by decide⟩

/-- The clause f1: an INC whose register field is 10, the least that names no register. -/
theorem witness_DecodeChecksFieldsInOrder_f1 :
    AtWord (oneWord 0x05A000000000000000000000 0 0) 0x05A000000000000000000000 ∧
    InstrWord.opcode 0x05A000000000000000000000 = Opcode.inc.code ∧ 1 ≤ Opcode.inc.uses ∧
    NoReg (InstrWord.f1 0x05A000000000000000000000) :=
  ⟨atWord_oneWord _ _ _, by decide, by decide, by decide⟩

/-- The clause f2: a STORE with f1 = 9, the greatest that names a register, and f2 = 15. -/
theorem witness_DecodeChecksFieldsInOrder_f2 :
    AtWord (oneWord 0x0A9F00000000000000000000 0 0) 0x0A9F00000000000000000000 ∧
    InstrWord.opcode 0x0A9F00000000000000000000 = Opcode.store.code ∧ 2 ≤ Opcode.store.uses ∧
    ¬ NoReg (InstrWord.f1 0x0A9F00000000000000000000) ∧ NoReg (InstrWord.f2 0x0A9F00000000000000000000) :=
  ⟨atWord_oneWord _ _ _, by decide, by decide, by decide, by decide⟩

/-- The clause f3: an ADD with f3 = 10. -/
theorem witness_DecodeChecksFieldsInOrder_f3 :
    AtWord (oneWord 0x0199A0000000000000000000 0 0) 0x0199A0000000000000000000 ∧
    InstrWord.opcode 0x0199A0000000000000000000 = Opcode.add.code ∧ 3 ≤ Opcode.add.uses ∧
    ¬ NoReg (InstrWord.f1 0x0199A0000000000000000000) ∧ ¬ NoReg (InstrWord.f2 0x0199A0000000000000000000) ∧
    NoReg (InstrWord.f3 0x0199A0000000000000000000) :=
  ⟨atWord_oneWord _ _ _, by decide, by decide, by decide, by decide, by decide⟩

/-- The operator clause: a CMP with cop = 6, the least that names no operator. -/
theorem witness_DecodeChecksFieldsInOrder_cop :
    AtWord (oneWord 0x070126000000000000000000 0 0) 0x070126000000000000000000 ∧
    InstrWord.opcode 0x070126000000000000000000 = Opcode.cmp.code ∧
    ¬ NoReg (InstrWord.f1 0x070126000000000000000000) ∧ ¬ NoReg (InstrWord.f2 0x070126000000000000000000) ∧
    ¬ NoReg (InstrWord.f3 0x070126000000000000000000) ∧ 5 < (InstrWord.cop 0x070126000000000000000000).toNat :=
  ⟨atWord_oneWord _ _ _, by decide, by decide, by decide, by decide, by decide⟩

theorem witness_FaultsArePrecise : ∃ t, AtWord (oneWord 0x040120000000000000000000 7 2) 0x040120000000000000000000 ∧
    step (oneWord 0x040120000000000000000000 7 2) = .next t ∧ t.engine = .faulted :=
  ⟨raise .inexactDivision 0 (preIncrement (oneWord 0x040120000000000000000000 7 2)), atWord_oneWord _ _ _, rfl, rfl⟩

/-- Both clauses: the HALT, and an INC that does not fault. -/
theorem witness_OnlyHaltHalts :
    (AtWord (oneWord 0x0D0000000000000000000000 0 0) 0x0D0000000000000000000000 ∧
      decode 0x0D0000000000000000000000 = .instr .halt ∧ ∃ t, step (oneWord 0x0D0000000000000000000000 0 0) = .next t) ∧
    ∃ t, AtWord (oneWord 0x050000000000000000000000 0 0) 0x050000000000000000000000 ∧
      decode 0x050000000000000000000000 = .instr (.inc .r0) ∧ Instr.inc .r0 ≠ .halt ∧
      step (oneWord 0x050000000000000000000000 0 0) = .next t ∧ t.engine ≠ .faulted :=
  ⟨⟨atWord_oneWord _ _ _, by decide, _, rfl⟩,
    (preIncrement (oneWord 0x050000000000000000000000 0 0)).setReg .r0 1, atWord_oneWord _ _ _, by decide, by decide,
    rfl, by decide⟩

theorem witness_HandlersTakeOnlyTheirFaults : ∃ t, (Instr.div .r0 .r1 .r2).WellFormed ∧
    (oneWord 0 7 0).engine = .running ∧ exec (.div .r0 .r1 .r2) (oneWord 0 7 0) = .next t ∧ t.engine = .faulted :=
  ⟨raise .divisionByZero 0 (oneWord 0 7 0), by decide, rfl, rfl, rfl⟩

theorem witness_FaultRecordChangesOnlyOnAFault : ∃ t, step (startRun [0]) = .next t ∧ t.fault ≠ (startRun [0]).fault :=
  ⟨raise .unsupportedInstruction 0 (preIncrement (startRun [0])), rfl, by decide⟩

theorem witness_DecodeOfEncodeIsTheRecord : (Instr.jmp .r3 (-(2 ^ 63))).WellFormed ∧ (Instr.jmp .r3 (2 ^ 63 - 1)).WellFormed := by
  decide

/-- A word that decodes, and is not canonical. -/
theorem witness_EncodeOfDecodeIsCanonical : decode 0x050FFFFF00000000DEADBEEF#96 = .instr (.inc .r0) ∧
    canonicalWord .inc 0x050FFFFF00000000DEADBEEF#96 ≠ 0x050FFFFF00000000DEADBEEF#96 := by decide

theorem witness_IgnoredBitsDoNotMatter : InstrWord.opcode 0x050FFFFF00000000DEADBEEF#96 = Opcode.inc.code ∧
    InstrWord.opcode 0x050000000000000000000000#96 = Opcode.inc.code ∧
    canonicalWord .inc 0x050FFFFF00000000DEADBEEF#96 = canonicalWord .inc 0x050000000000000000000000#96 := by decide

theorem witness_DecodedRecordsAreWellFormed : decode 0x080000007FFFFFFFFFFFFFFF#96 = .instr (.const (2 ^ 63 - 1) .r0) := by
  decide

/-- The words of ADD, SUB, MUL and DIV: the legal fields, and each field that names no register. -/
theorem witness_three_register_words :
    ((InstrWord.opcode 0x010120000000000000000000#96 = 0x01 ∧ InstrWord.opcode 0x020120000000000000000000#96 = 0x02) ∧
      InstrWord.opcode 0x030030000000000000000000#96 = 0x03 ∧ InstrWord.opcode 0x040120000000000000000000#96 = 0x04) ∧
    (InstrWord.f1 0x018990000000000000000000#96 = RegId.ip.num ∧ InstrWord.f2 0x018990000000000000000000#96 = RegId.sp.num ∧
      InstrWord.f3 0x018990000000000000000000#96 = RegId.sp.num) ∧
    NoReg (InstrWord.f1 0x01A000000000000000000000#96) ∧
    (¬ NoReg (InstrWord.f1 0x019A00000000000000000000#96) ∧ NoReg (InstrWord.f2 0x019A00000000000000000000#96)) ∧
    (¬ NoReg (InstrWord.f2 0x0199A0000000000000000000#96) ∧ NoReg (InstrWord.f3 0x0199A0000000000000000000#96)) := by decide

/-- The two clauses of ADD, SUB, MUL, INC, DEC and JMP at the edges of `Val`. -/
theorem witness_value_edges :
    (Config.InVal ((oneWord 0 9223372036854775807 0).val .r0 + (oneWord 0 9223372036854775807 0).val .r1) ∧
      ¬ Config.InVal ((oneWord 0 9223372036854775807 1).val .r0 + (oneWord 0 9223372036854775807 1).val .r1)) ∧
    (Config.InVal ((oneWord 0 0 9223372036854775807).val .r0 - (oneWord 0 0 9223372036854775807).val .r1) ∧
      ¬ Config.InVal ((oneWord 0 0 (-9223372036854775808)).val .r0 - (oneWord 0 0 (-9223372036854775808)).val .r1)) ∧
    (Config.InVal ((oneWord 0 (-4294967296) 2147483648).val .r0 * (oneWord 0 (-4294967296) 2147483648).val .r1) ∧
      ¬ Config.InVal ((oneWord 0 4294967296 2147483648).val .r0 * (oneWord 0 4294967296 2147483648).val .r1)) := by decide

/-- The clauses of DIV: a zero divisor, an inexact pair, an exact pair inside `Val`, and `VMIN / -1`. -/
theorem witness_DivWritesTheExactQuotient :
    (oneWord 0 7 0).val .r1 = 0 ∧
    ((oneWord 0 7 2).val .r1 ≠ 0 ∧ ¬ ∃ q : Int, q * (oneWord 0 7 2).val .r1 = (oneWord 0 7 2).val .r0) ∧
    ((oneWord 0 (-6) 3).val .r1 ≠ 0 ∧ -2 * (oneWord 0 (-6) 3).val .r1 = (oneWord 0 (-6) 3).val .r0 ∧ Config.InVal (-2)) ∧
    (oneWord 0 (-9223372036854775808) (-1)).val .r1 ≠ 0 ∧
    9223372036854775808 * (oneWord 0 (-9223372036854775808) (-1)).val .r1 = (oneWord 0 (-9223372036854775808) (-1)).val .r0 ∧
    ¬ Config.InVal 9223372036854775808 := by
  have h₀ : (oneWord 0 7 2).val .r0 = 7 := by decide
  have h₁ : (oneWord 0 7 2).val .r1 = 2 := by decide
  refine ⟨by decide, ⟨by decide, ?_⟩, by decide, by decide, by decide, by decide⟩
  rintro ⟨q, h⟩
  rw [h₀, h₁] at h
  omega

/-- Both sides of the equivalence on a Running state: `VMIN / -1`, and `VMIN / 1` beside it. -/
theorem witness_DivOverflowsOnlyForVminByMinusOne :
    (oneWord 0 (-9223372036854775808) (-1)).engine = .running ∧
    ((oneWord 0 (-9223372036854775808) (-1)).val .r0 = Config.vMin ∧ (oneWord 0 (-9223372036854775808) (-1)).val .r1 = -1) ∧
    (oneWord 0 (-9223372036854775808) 1).engine = .running ∧ (oneWord 0 (-9223372036854775808) 1).val .r1 ≠ -1 := by decide

theorem witness_DivRoundingParameters : (-2 : Int) ≠ 0 ∧ (-3 : Int) * -2 = 6 := by decide

/-- The words of INC, DEC, CONST and JMP, a legal field and one that names no register. -/
theorem witness_one_register_words :
    ((InstrWord.opcode 0x059000000000000000000000#96 = 0x05 ∧ InstrWord.opcode 0x060000000000000000000000#96 = 0x06) ∧
      InstrWord.opcode 0x088000000000000000000003#96 = 0x08 ∧ InstrWord.opcode 0x0B3000000000000000000004#96 = 0x0B) ∧
    InstrWord.f1 0x059000000000000000000000#96 = RegId.sp.num ∧ NoReg (InstrWord.f1 0x05A000000000000000000000#96) := by decide

/-- INC, DEC and JMP at the edges of `Val`. -/
theorem witness_increment_edges :
    (Config.InVal ((oneWord 0 9223372036854775806 0).val .r0 + 1) ∧
      ¬ Config.InVal ((oneWord 0 9223372036854775807 0).val .r0 + 1)) ∧
    (Config.InVal ((oneWord 0 (-9223372036854775807) 0).val .r0 - 1) ∧
      ¬ Config.InVal ((oneWord 0 (-9223372036854775808) 0).val .r0 - 1)) := by decide

theorem witness_RepeatedIncCounts : (oneWord 0 0 0).val .r0 = 0 ∧ ((2 ^ 63 - 1 : Nat) : Int) ≤ Config.vMax := by decide

/-- The words of CMP: a legal one, each field that names no register, and an operator code of 6. -/
theorem witness_CmpWritesOneOrZero :
    (InstrWord.opcode 0x071145000000000000000000#96 = 0x07 ∧ InstrWord.f1 0x071145000000000000000000#96 = RegId.r1.num ∧
      InstrWord.f2 0x071145000000000000000000#96 = RegId.r1.num ∧ InstrWord.f3 0x071145000000000000000000#96 = RegId.r4.num ∧
      InstrWord.cop 0x071145000000000000000000#96 = CmpOp.ne.code) ∧
    NoReg (InstrWord.f1 0x07A009000000000000000000#96) ∧
    (¬ NoReg (InstrWord.f1 0x079F00000000000000000000#96) ∧ NoReg (InstrWord.f2 0x079F00000000000000000000#96)) ∧
    (¬ NoReg (InstrWord.f2 0x0799A0000000000000000000#96) ∧ NoReg (InstrWord.f3 0x0799A0000000000000000000#96)) ∧
    (¬ NoReg (InstrWord.f3 0x070126000000000000000000#96) ∧ 5 < (InstrWord.cop 0x070126000000000000000000#96).toNat) := by
  decide

theorem witness_ConstWritesTheLiteral : (Instr.const (-(2 ^ 63)) .ip).WellFormed := by decide

theorem witness_EffectiveAddressFitsTheInfoField : Config.InVal (2 ^ 63 - 1) ∧ Config.InVal (-(2 ^ 63)) := by decide

/-- The words of LOAD, STORE and JZ: legal fields, and each field that names no register. -/
theorem witness_two_register_words :
    ((InstrWord.opcode 0x090200000000000000000003#96 = 0x09 ∧ InstrWord.opcode 0x0A9F00000000000000000000#96 = 0x0A) ∧
      InstrWord.opcode 0x0CC100000000000000000000#96 = 0x0C) ∧
    (InstrWord.f1 0x090200000000000000000003#96 = RegId.r0.num ∧ InstrWord.f2 0x090200000000000000000003#96 = RegId.r2.num) ∧
    NoReg (InstrWord.f1 0x0CC100000000000000000000#96) ∧
    (¬ NoReg (InstrWord.f1 0x0A9F00000000000000000000#96) ∧ NoReg (InstrWord.f2 0x0A9F00000000000000000000#96)) := by decide

/-- LOAD's and STORE's clauses at their edges: cells 0 and 1023, and the addresses -1 and 1024. -/
theorem witness_address_edges :
    ((Instr.load .r0 .r1 (-5)).WellFormed ∧ (Instr.store .r0 .r1 (-5)).WellFormed) ∧
    (0 ≤ (oneWord 0 5 0).val .r0 + -5 ∧ (oneWord 0 5 0).val .r0 + -5 < 1024) ∧
    (0 ≤ (oneWord 0 1023 0).val .r0 + 0 ∧ (oneWord 0 1023 0).val .r0 + 0 < 1024) ∧
    (oneWord 0 0 0).val .r0 + -1 < 0 ∧ 1024 ≤ (oneWord 0 1023 0).val .r0 + 1 := by decide

/-- Equal and different addresses. -/
theorem witness_LoadReturnsTheLatestStore :
    InBounds (effectiveAddr .r0 3 (oneWord 0 5 0)) ∧ InBounds (effectiveAddr .r1 8 (oneWord 0 5 0)) ∧
    effectiveAddr .r1 8 (oneWord 0 5 0) = effectiveAddr .r0 3 (oneWord 0 5 0) ∧
    InBounds (effectiveAddr .r1 1023 (oneWord 0 5 0)) ∧
    effectiveAddr .r1 1023 (oneWord 0 5 0) ≠ effectiveAddr .r0 3 (oneWord 0 5 0) := by decide

theorem witness_OnlyStoreChangesACell : ∃ t, step (oneWord 0x0A0100000000000000000003 5 42) = .next t ∧
    t.mem.read 8 ≠ (oneWord 0x0A0100000000000000000003 5 42).mem.read 8 :=
  ⟨(preIncrement (oneWord 0x0A0100000000000000000003 5 42)).setCell 8 42, rfl, by decide⟩

/-- Two memories that agree on the cell a LOAD addresses and differ elsewhere. -/
theorem witness_OnlyLoadReadsACell : ∀ rs rd offset, Instr.load .r0 .r1 3 = .load rs rd offset →
    InBounds (effectiveAddr rs offset (oneWord 0 5 0)) →
    Memory.read [(9, 1)] (effectiveAddr rs offset (oneWord 0 5 0)).toNat =
      (oneWord 0 5 0).mem.read (effectiveAddr rs offset (oneWord 0 5 0)).toNat := by
  rintro rs rd offset h -
  cases h
  decide

/-- A LOAD at a negative address: two memories that differ in cell 0 meet the hypothesis. -/
theorem witness_OnlyLoadReadsACell_negative : ∀ rs rd offset, Instr.load .r0 .r1 (-6) = .load rs rd offset →
    InBounds (effectiveAddr rs offset (oneWord 0 5 0)) →
    Memory.read [(0, 1)] (effectiveAddr rs offset (oneWord 0 5 0)).toNat =
      (oneWord 0 5 0).mem.read (effectiveAddr rs offset (oneWord 0 5 0)).toNat := by
  rintro rs rd offset h hb
  cases h
  exact absurd hb (by decide)

/-- Both clauses of JZ: a tested register of 0, and one of -1. -/
theorem witness_JzBranchesExactlyOnZero : (oneWord 0 4 0).val .r1 = 0 ∧ (oneWord 0 4 (-1)).val .r1 ≠ 0 := by decide

/-- JMP's two edges: a target just outside the Program on each side. -/
theorem witness_BadJumpTargetFaultsAtTheNextFetch :
    ((oneWord 0 0 0).engine = .running ∧ ((oneWord 0 0 0).prog.length : Int) ≤ Config.vMax) ∧
    (Config.InVal ((oneWord 0 0 0).val .r0 + -1) ∧ (oneWord 0 0 0).val .r0 + -1 < 0) ∧
    Config.InVal ((oneWord 0 0 0).val .r0 + 1) ∧ ((oneWord 0 0 0).prog.length : Int) ≤ (oneWord 0 0 0).val .r0 + 1 := by decide

theorem witness_JmpIpIdioms : AtWord (oneWord 0x0B800000FFFFFFFFFFFFFFFF 0 0) 0x0B800000FFFFFFFFFFFFFFFF ∧
    decode 0x0B800000FFFFFFFFFFFFFFFF = .instr (.jmp .ip (-1)) :=
  ⟨atWord_oneWord _ _ _, by decide⟩

theorem witness_HaltStopsTheEngine : AtWord (oneWord 0x0DFFFFFFFFFFFFFFFFFFFFFF 0 0) 0x0DFFFFFFFFFFFFFFFFFFFFFF ∧
    InstrWord.opcode 0x0DFFFFFFFFFFFFFFFFFFFFFF#96 = 0x0D :=
  ⟨atWord_oneWord _ _ _, by decide⟩

theorem witness_OnlyTheWrittenRegisterChanges : ∃ t, exec (.inc .r0) (oneWord 0 0 0) = .next t ∧
    regWritten (.inc .r0) (oneWord 0 0 0) ≠ some .sp :=
  ⟨(oneWord 0 0 0).setReg .r0 1, rfl, by decide⟩

theorem witness_SpIsUntouchedUnlessNamed : ∃ t,
    (∀ w ∈ (oneWord 0x050000000000000000000000 0 0).prog, ∀ i, decode w = .instr i → targetOf i ≠ some .sp) ∧
    core.run 1 (oneWord 0x050000000000000000000000 0 0) = .next t := by
  refine ⟨(preIncrement (oneWord 0x050000000000000000000000 0 0)).setReg .r0 1, ?_, rfl⟩
  intro w hw i hi
  have hw : w = 0x050000000000000000000000#96 := List.mem_singleton.1 hw
  rw [hw, show decode 0x050000000000000000000000#96 = .instr (.inc .r0) by decide] at hi
  cases hi
  decide

theorem witness_ProgramIsImmutable : ∃ t, core.run 1 (oneWord 0x050000000000000000000000 0 0) = .next t :=
  ⟨(preIncrement (oneWord 0x050000000000000000000000 0 0)).setReg .r0 1, rfl⟩

/-- Two Programs with the same word at index 0 and different lengths. -/
theorem witness_StepDependsOnOneProgramWord : ∃ t,
    AtWord (oneWord 0x050000000000000000000000 0 0) 0x050000000000000000000000 ∧
    AtWord { oneWord 0x050000000000000000000000 0 0 with prog := [0x050000000000000000000000, 7] } 0x050000000000000000000000 ∧
    step (oneWord 0x050000000000000000000000 0 0) = .next t :=
  ⟨(preIncrement (oneWord 0x050000000000000000000000 0 0)).setReg .r0 1, atWord_oneWord _ _ _,
    ⟨rfl, by show (2 : Int) ≤ Config.vMax; decide, by show (0 : Int) ≤ (0 : Word).toInt; decide, rfl⟩, rfl⟩

theorem witness_PortsShowTheState : NoReg 10 ∧ ¬ NoReg 9 := by decide

/-- Both clauses: a Halted engine and a Faulted one, and the last cell. -/
theorem witness_OutcomeCarriesTheEndOfTheRun : (haltEngine State.reset).engine = .halted ∧
    (raise .divisionByZero 0 State.reset).engine = .faulted ∧ 1023 < 1024 := by decide

/-- The clauses: each idle case, a LOAD and a STORE in bounds at cell 1023 and out of bounds at 1024, and another instruction. -/
theorem witness_StorePortsCarryTheAccess :
    ((haltEngine State.reset).engine ≠ .running ∧ ((oneWord 0 0 0).setReg .ip (-1)).val .ip < 0 ∧
      ((oneWord 0 0 0).prog.length : Int) ≤ ((oneWord 0 0 0).setReg .ip 1).val .ip) ∧
    (AtWord (oneWord 0x090100000000000000000000 1023 0) 0x090100000000000000000000 ∧
      decode 0x090100000000000000000000#96 = .instr (.load .r0 .r1 0) ∧
      InBounds (effectiveAddr .r0 0 (preIncrement (oneWord 0x090100000000000000000000 1023 0))) ∧
      ¬ InBounds (effectiveAddr .r0 0 (preIncrement (oneWord 0x090100000000000000000000 1024 0)))) ∧
    (AtWord (oneWord 0x0A0100000000000000000000 1023 0) 0x0A0100000000000000000000 ∧
      decode 0x0A0100000000000000000000#96 = .instr (.store .r0 .r1 0) ∧
      InBounds (effectiveAddr .r0 0 (preIncrement (oneWord 0x0A0100000000000000000000 1023 0))) ∧
      ¬ InBounds (effectiveAddr .r0 0 (preIncrement (oneWord 0x0A0100000000000000000000 1024 0)))) ∧
    AtWord (oneWord 0 0 0) 0 ∧ ∀ rs rd offset, decode 0#96 ≠ .instr (.load rs rd offset) ∧
      decode 0#96 ≠ .instr (.store rs rd offset) := by
  refine ⟨by decide, ⟨atWord_oneWord _ _ _, by decide⟩, ⟨atWord_oneWord _ _ _, by decide⟩, atWord_oneWord _ _ _, ?_⟩
  intro rs rd offset
  rw [show decode 0#96 = .fault (.unsupportedInstruction 0) by decide]
  exact ⟨nofun, nofun⟩

/-- Both clauses: a step that completes, and one that faults. -/
theorem witness_TraceReportsCompletedHandlers :
    (∃ t, AtWord (oneWord 0x050000000000000000000000 0 0) 0x050000000000000000000000 ∧
      decode 0x050000000000000000000000#96 = .instr (.inc .r0) ∧
      step (oneWord 0x050000000000000000000000 0 0) = .next t ∧ t.engine ≠ .faulted) ∧
    ∃ t, AtWord (oneWord 0x040120000000000000000000 7 2) 0x040120000000000000000000 ∧
      decode 0x040120000000000000000000#96 = .instr (.div .r0 .r1 .r2) ∧
      step (oneWord 0x040120000000000000000000 7 2) = .next t ∧ t.engine = .faulted :=
  ⟨⟨(preIncrement (oneWord 0x050000000000000000000000 0 0)).setReg .r0 1, atWord_oneWord _ _ _, by decide, rfl, by decide⟩,
    raise .inexactDivision 0 (preIncrement (oneWord 0x040120000000000000000000 7 2)), atWord_oneWord _ _ _, by decide,
    rfl, rfl⟩

end Sys2Proof.Tests
end

/-! ## Fetch, decode and the step (spec 40_fetch_step_cycle)

The frames of a fault and of the pre-increment, what a step answers in each of its cases, and the obligations of the family. -/

namespace Sys2Proof.Machine

/-! ### Frames -/

/-- A raised fault whose information value fits 65 bits is a fault taken (rule R230). -/
theorem faultTaken_raise (k : FaultKind) {n : Int} (s : State) (hlo : -(2 ^ 64) ≤ n) (hhi : n < 2 ^ 64) :
    FaultTaken s (raise k n s) k n where
  engine := rfl
  kind := rfl
  info := toInt_ofInt_info hlo hhi
  ip := rfl
  regs _ := rfl
  cells _ := rfl
  prog := rfl

/-- The content of a register can be an information value: `XLEN` bits fit into `XLEN + 1`. -/
theorem faultTaken_raise_val (k : FaultKind) (r : RegId) (s : State) :
    FaultTaken s (raise k (s.val r) s) k (s.val r) := by
  obtain ⟨hlo, hhi⟩ := s.inVal_val r
  rw [Config.vMin_eq] at hlo
  rw [Config.vMax_eq] at hhi
  exact faultTaken_raise k s (by omega) (by omega)

/-- The information value of a decode fault is a field of at most eight bits. -/
theorem decodeFaultInfo_bounds (f : DecodeFault) : 0 ≤ decodeFaultInfo f ∧ decodeFaultInfo f < 2 ^ 8 := by
  cases f with
  | unsupportedInstruction b | unknownRegister b | unsupportedOperator b =>
    have := b.isLt
    simp only [decodeFaultInfo]
    omega

/-- A decode fault is taken with its kind and its field's value. -/
theorem faultTaken_raiseDecode (f : DecodeFault) (s : State) :
    FaultTaken s (raiseDecode f s) (decodeFaultKind f) (decodeFaultInfo f) := by
  obtain ⟨hlo, hhi⟩ := decodeFaultInfo_bounds f
  rw [raiseDecode_eq]
  exact faultTaken_raise _ s (by omega) (by omega)

/-- The pre-increment at a fetched word adds one to IP and changes nothing else (rule R126). -/
theorem AtWord.regWritten_preIncrement {s : State} {w : InstrWord} (h : AtWord s w) :
    RegWritten s (preIncrement s) .ip (s.val .ip + 1) where
  value := h.preIncrement_ip
  others _ hr := preIncrement_reg hr
  cells _ := rfl
  engine := rfl
  fault := rfl
  prog := rfl

/-! ### What a step answers -/

/-- Rule R121. -/
theorem step_of_not_running {s : State} (h : s.engine ≠ .running) : step s = .next s := by
  cases he : s.engine with
  | running => exact absurd he h
  | halted => exact step_halted he
  | faulted => exact step_faulted he

/-- A state that steps to itself stays there for any number of steps. -/
theorem run_of_step_self {s : State} (h : step s = .next s) (n : Nat) : core.run n s = .next s := by
  induction n with
  | zero => exact run_zero s
  | succ n ih => exact (run_succ_next n h).trans ih

/-- An IP outside the Program makes the step raise ProgramCounterOutOfRange (rule R122). -/
theorem step_of_outOfRange {s : State} (he : s.engine = .running) (hb : (s.prog.length : Int) ≤ Config.vMax)
    (hr : s.val .ip < 0 ∨ (s.prog.length : Int) ≤ s.val .ip) :
    step s = .next (raise .programCounterOutOfRange (s.val .ip) s) := by
  obtain ⟨hlong, -⟩ | ⟨-, -, hf⟩ | ⟨-, hnonneg, hlt, -⟩ := fetch_cases s
  · omega
  · rw [step_running he, hf]
  · omega

/-- An IP inside the Program makes the fetch answer the word there (rule R122). -/
theorem fetch_of_inRange {s : State} (hb : (s.prog.length : Int) ≤ Config.vMax) (hnonneg : 0 ≤ s.val .ip)
    (hlt : s.val .ip < s.prog.length) : ∃ w, s.prog[(s.val .ip).toNat]? = some w ∧ fetch s = .word w := by
  obtain ⟨hlong, -⟩ | ⟨-, hout, -⟩ | ⟨-, -, -, hword⟩ := fetch_cases s
  · omega
  · omega
  · exact hword

/-- A step at a word that decodes is its handler on the pre-incremented state (rule R129). -/
theorem AtWord.step_of_instr {s : State} {w : InstrWord} {i : Instr} (h : AtWord s w) (hd : decode w = .instr i) :
    step s = exec i (preIncrement s) := by
  rw [h.step_eq, hd]

/-- A step at a word that does not decode takes the decode fault on the pre-incremented state (rules R127, R128). -/
theorem AtWord.step_of_fault {s : State} {w : InstrWord} {f : DecodeFault} (h : AtWord s w) (hd : decode w = .fault f) :
    step s = .next (raiseDecode f (preIncrement s)) := by
  rw [h.step_eq, hd]

/-- Rule R88: a word whose opcode is outside the closed set. -/
theorem decode_of_unknown_opcode {w : InstrWord} (h : w.opcode.toNat < 0x01 ∨ 0x0D < w.opcode.toNat) :
    decode w = .fault (.unsupportedInstruction w.opcode) := by
  simp only [decode, (Opcode.ofField?_eq_none w.opcode).2 h]

/-- No handler but HALT's moves the engine anywhere but to Faulted. -/
theorem HandlerDid.engine_of_ne_halt {i : Instr} {s t : State} (h : HandlerDid i s t) (hi : i ≠ .halt) :
    t.engine = s.engine ∨ t.engine = .faulted := by
  cases h with
  | wrote | stored | untaken => exact .inl rfl
  | halted hhalt => exact absurd hhalt hi
  | badAddress | faulted => exact .inr rfl

/-! ### The obligations -/

/-- Settles O7 (rule R121): a stopped engine steps to the same state, so by induction it runs to it. -/
theorem haltedAndFaultedAbsorb : Obligations.HaltedAndFaultedAbsorb := by
  intro s n h
  have hstep := step_of_not_running h
  exact ⟨hstep, run_of_step_self hstep n⟩

/-- Settles O8 (rule R122): the two ranges of IP are the two answers of a fetch over a Program within its bound. -/
theorem fetchChecksTheRange : Obligations.FetchChecksTheRange := by
  intro s he hb
  refine ⟨fun hr => ?_, fetch_of_inRange hb⟩
  exact ⟨_, step_of_outOfRange he hb hr, faultTaken_raise_val _ .ip s⟩

/-- Settles O10 (rule R127): the decode fails on the opcode alone, and its fault is taken after the pre-increment. -/
theorem unknownOpcodeFaultsAfterThePreIncrement : Obligations.UnknownOpcodeFaultsAfterThePreIncrement := by
  intro s w hw hop
  exact ⟨preIncrement s, _, hw.regWritten_preIncrement, hw.step_of_fault (decode_of_unknown_opcode hop),
    faultTaken_raiseDecode (.unsupportedInstruction w.opcode) _⟩

/-- Settles O13 (rule R130): HALT's handler halts, and every other handler keeps the engine Running or faults. -/
theorem onlyHaltHalts : Obligations.OnlyHaltHalts := by
  intro s t w i hw hd hstep
  rw [hw.step_of_instr hd] at hstep
  constructor
  · rintro rfl
    rw [exec_halt] at hstep
    cases hstep
    rfl
  · intro hi hnf
    have hengine := ((exec_cases hstep).engine_of_ne_halt hi).resolve_right hnf
    rw [hengine, preIncrement_engine, hw.running]

end Sys2Proof.Machine

/-! ## Arithmetic (spec 41_arithmetic)

The frame of a checked register write, the words of the opcodes with three and with one register field, and the obligations of
the family. -/

namespace Sys2Proof.Machine

/-! ### The checked register write -/

/-- A value of `Val` put into a register is a register written (rules R9, R37). -/
theorem regWritten_setReg (s : State) (d : RegId) {v : Int} (hv : Config.InVal v) :
    RegWritten s (s.setReg d (BitVec.ofInt 64 v)) d v where
  value := (s.setReg_val_same d _).trans (toInt_ofInt_word hv)
  others r hr := by rw [State.setReg_reg, if_neg hr]
  cells _ := rfl
  engine := rfl
  fault := rfl
  prog := rfl

/-- The checked register write, in `Val` and outside it (rules R9, R151, R220). -/
theorem writesOrOverflows_writeReg (s : State) (d : RegId) (v : Int) : WritesOrOverflows (writeReg d v s) s d v := by
  constructor
  · intro hv
    exact ⟨_, writeReg_of_inVal d s hv, regWritten_setReg s d hv⟩
  · intro hv
    exact ⟨_, writeReg_of_not_inVal d s hv, faultTaken_raise _ s (by decide) (by decide)⟩

/-! ### The words an opcode reads from -/

/-- A decode that checks f1, f2 and f3 in this order and uses nothing else of the word (rules R85, R91, R128). -/
theorem readsThreeRegs_of_decode {code : OpcodeField} {mk : RegId → RegId → RegId → Instr}
    (hdecode : ∀ w : InstrWord, w.opcode = code →
      decode w = needReg w.f1 fun a => needReg w.f2 fun b => needReg w.f3 fun d => .instr (mk a b d)) :
    ReadsThreeRegs code mk := by
  intro w hw
  rw [hdecode w hw]
  refine ⟨?_, needReg_unknown _, ?_, ?_⟩
  · intro a b d ha hb hd
    simp only [ha, hb, hd, needReg_num]
  · intro h₁ h₂
    obtain ⟨a, ha⟩ := exists_num h₁
    rw [ha, needReg_num, needReg_unknown _ h₂]
  · intro h₁ h₂ h₃
    obtain ⟨a, ha⟩ := exists_num h₁
    obtain ⟨b, hb⟩ := exists_num h₂
    rw [ha, needReg_num, hb, needReg_num, needReg_unknown _ h₃]

/-- A decode that checks f1 alone, and may use the literal (rules R84, R85, R91). -/
theorem readsOneReg_of_decode {code : OpcodeField} {mk : RegId → Int → Instr}
    (hdecode : ∀ w : InstrWord, w.opcode = code → decode w = needReg w.f1 fun a => .instr (mk a w.literal)) :
    ReadsOneReg code mk := by
  intro w hw
  rw [hdecode w hw]
  refine ⟨?_, needReg_unknown _⟩
  intro a ha
  rw [ha, needReg_num, InstrWord.literal]

/-! ### The obligations -/

/-- Settles O22 (rule R152): the words by the decode of opcode 0x01, the result by the one checked write of the exact sum. -/
theorem addWritesTheExactSum : Obligations.AddWritesTheExactSum := by
  refine ⟨readsThreeRegs_of_decode fun _ hop => decode_of_opcode (op := .add) hop, fun s a b d => ?_⟩
  rw [exec_add]
  exact writesOrOverflows_writeReg s d _

/-- Settles O23 (rule R153): as ADD, with the exact difference of the first source and the second. -/
theorem subWritesTheExactDifference : Obligations.SubWritesTheExactDifference := by
  refine ⟨readsThreeRegs_of_decode fun _ hop => decode_of_opcode (op := .sub) hop, fun s a b d => ?_⟩
  rw [exec_sub]
  exact writesOrOverflows_writeReg s d _

/-- Settles O24 (rule R154): as ADD, with the exact signed product. -/
theorem mulWritesTheExactProduct : Obligations.MulWritesTheExactProduct := by
  refine ⟨readsThreeRegs_of_decode fun _ hop => decode_of_opcode (op := .mul) hop, fun s a b d => ?_⟩
  rw [exec_mul]
  exact writesOrOverflows_writeReg s d _

/-- Settles O28 (rule R158): the words by the decode of opcode 0x05, the result by a checked write to the register read. -/
theorem incAddsOne : Obligations.IncAddsOne := by
  refine ⟨readsOneReg_of_decode fun _ hop => decode_of_opcode (op := .inc) hop, fun s a => ?_⟩
  rw [exec_inc]
  exact writesOrOverflows_writeReg s a _

/-- Settles O29 (rule R159): as INC, with one less. -/
theorem decSubtractsOne : Obligations.DecSubtractsOne := by
  refine ⟨readsOneReg_of_decode fun _ hop => decode_of_opcode (op := .dec) hop, fun s a => ?_⟩
  rw [exec_dec]
  exact writesOrOverflows_writeReg s a _

end Sys2Proof.Machine

/-! ## Compare and constant (spec 42_compare_const)

The words of CMP, the value it writes, and the obligations of the family. -/

namespace Sys2Proof.Machine

/-! ### The words of CMP -/

/-- A CMP word whose four fields all name something is the record of these (rules R83, R171). -/
theorem decode_cmp_of_fields {w : InstrWord} {op : CmpOp} {a b d : RegId} (hop : w.opcode = Opcode.cmp.code)
    (ha : w.f1 = a.num) (hb : w.f2 = b.num) (hd : w.f3 = d.num) (hc : w.cop = op.code) :
    decode w = .instr (.cmp op a b d) := by
  simp only [decode_of_opcode hop, ha, hb, hd, hc, needReg_num, needOp_code]

/-- A CMP word is checked in the order f1, f2, f3, `cop`; the first field that names nothing is the fault (rule R128). -/
theorem decode_cmp_checks_in_order {w : InstrWord} (hop : w.opcode = Opcode.cmp.code) :
    (NoReg w.f1 → decode w = .fault (.unknownRegister w.f1)) ∧
    (¬ NoReg w.f1 → NoReg w.f2 → decode w = .fault (.unknownRegister w.f2)) ∧
    (¬ NoReg w.f1 → ¬ NoReg w.f2 → NoReg w.f3 → decode w = .fault (.unknownRegister w.f3)) ∧
    (¬ NoReg w.f1 → ¬ NoReg w.f2 → ¬ NoReg w.f3 → 5 < w.cop.toNat →
      decode w = .fault (.unsupportedOperator w.cop)) := by
  simp only [decode_of_opcode hop]
  refine ⟨needReg_unknown _, ?_, ?_, ?_⟩
  · intro h₁ h₂
    obtain ⟨a, ha⟩ := exists_num h₁
    rw [ha, needReg_num, needReg_unknown _ h₂]
  · intro h₁ h₂ h₃
    obtain ⟨a, ha⟩ := exists_num h₁
    obtain ⟨b, hb⟩ := exists_num h₂
    rw [ha, needReg_num, hb, needReg_num, needReg_unknown _ h₃]
  · intro h₁ h₂ h₃ hc
    obtain ⟨a, ha⟩ := exists_num h₁
    obtain ⟨b, hb⟩ := exists_num h₂
    obtain ⟨d, hd⟩ := exists_num h₃
    rw [ha, needReg_num, hb, needReg_num, hd, needReg_num, needOp_unsupported _ hc]

/-! ### The value CMP writes -/

/-- `b2i` of a decided condition (rule R12). -/
theorem b2i_decide (p : Prop) [Decidable p] : b2i (decide p) = if p then 1 else 0 := by
  by_cases hp : p <;> simp [b2i, hp]

/-- CMP writes 1 or 0 by whichever condition its operator's relation decides on the two sources (rule R171). -/
theorem exec_cmp_regWritten {op : CmpOp} {a b : RegId} {s : State} (d : RegId) {p : Prop} [Decidable p]
    (hrel : cmpHolds op (s.val a) (s.val b) = decide p) :
    ∃ t, exec (.cmp op a b d) s = .next t ∧ RegWritten s t d (if p then 1 else 0) := by
  refine ⟨_, exec_cmp op a b d s, ?_⟩
  rw [← b2i_decide p, ← hrel]
  exact regWritten_setReg s d (b2i_inVal _)

/-! ### The obligations -/

/-- Settles O31 (rules R170, R171): the words by the order of the decode's checks, and for each operator the relation it decides
is the one the statement names. -/
theorem cmpWritesOneOrZero : Obligations.CmpWritesOneOrZero := by
  constructor
  · intro w hop
    exact ⟨fun _ _ _ _ => decode_cmp_of_fields hop, decode_cmp_checks_in_order hop⟩
  · intro s a b d
    exact ⟨exec_cmp_regWritten (op := .lt) d rfl, exec_cmp_regWritten (op := .gt) d rfl,
      exec_cmp_regWritten (op := .le) d rfl, exec_cmp_regWritten (op := .ge) d rfl,
      exec_cmp_regWritten (op := .eq) d rfl, exec_cmp_regWritten (op := .ne) d rfl⟩

/-- Settles O32 (rule R173): the words by the decode of opcode 0x08; a literal that has an encoding lies in `Val`, so the checked
write stores it. -/
theorem constWritesTheLiteral : Obligations.ConstWritesTheLiteral := by
  refine ⟨readsOneReg_of_decode fun _ hop => decode_of_opcode (op := .const) hop, fun s v d hv => ?_⟩
  rw [exec_const]
  exact (writesOrOverflows_writeReg s d v).1 hv

end Sys2Proof.Machine

/-! ## Load and store (spec 43_load_store)

The words of the opcodes with two register fields, the exact effective address, the frame of a memory write, and the obligations
of the family. -/

namespace Sys2Proof.Machine

/-! ### The words an opcode reads from -/

/-- A decode that checks f1 and f2 in this order, and may use the literal (rules R84, R85, R91, R128). -/
theorem readsTwoRegs_of_decode {code : OpcodeField} {mk : RegId → RegId → Int → Instr}
    (hdecode : ∀ w : InstrWord, w.opcode = code →
      decode w = needReg w.f1 fun a => needReg w.f2 fun b => .instr (mk a b w.literal)) :
    ReadsTwoRegs code mk := by
  intro w hw
  rw [hdecode w hw]
  refine ⟨?_, needReg_unknown _, ?_⟩
  · intro a b ha hb
    simp only [ha, hb, needReg_num, InstrWord.literal]
  · intro h₁ h₂
    obtain ⟨a, ha⟩ := exists_num h₁
    rw [ha, needReg_num, needReg_unknown _ h₂]

/-! ### The effective address -/

/-- The bounds check fails exactly below cell 0 and from cell 1024 on (rule R56). -/
theorem not_inBounds_iff {ea : Int} : ¬ InBounds ea ↔ ea < 0 ∨ 1024 ≤ ea := by
  rw [InBounds, Config.memCap]
  omega

/-- The exact sum of a register and an encodable literal fits 65 bits (rule R181, decision D19). -/
theorem effectiveAddr_bounds {offset : Int} (rs : RegId) (s : State) (ho : Config.InVal offset) :
    -(2 ^ 64) ≤ effectiveAddr rs offset s ∧ effectiveAddr rs offset s ≤ 2 ^ 64 - 2 := by
  obtain ⟨hlo, hhi⟩ := s.inVal_val rs
  obtain ⟨holo, hohi⟩ := ho
  rw [Config.vMin_eq] at hlo holo
  rw [Config.vMax_eq] at hhi hohi
  rw [effectiveAddr]
  omega

/-- A fault raised with an effective address records it unwrapped (rules R56, R181). -/
theorem faultTaken_raise_effectiveAddr (k : FaultKind) {offset : Int} (rs : RegId) (s : State) (ho : Config.InVal offset) :
    FaultTaken s (raise k (effectiveAddr rs offset s) s) k (effectiveAddr rs offset s) := by
  obtain ⟨hlo, hhi⟩ := effectiveAddr_bounds rs s ho
  exact faultTaken_raise k s hlo (by omega)

/-! ### Frames -/

/-- A word put into a register is the integer it stands for written there (rules R9, R37). -/
theorem regWritten_setReg_word (s : State) (d : RegId) (v : Word) : RegWritten s (s.setReg d v) d v.toInt := by
  simpa only [BitVec.ofInt_toInt] using regWritten_setReg s d (inVal_toInt v)

/-- A cell put into the memory is a cell written (rules R10, R54). -/
theorem cellWritten_setCell (s : State) (a : Nat) (v : Word) : CellWritten s (s.setCell a v) a v where
  value := by rw [State.setCell_mem, Memory.read_write, if_pos rfl]
  others b hb := by rw [State.setCell_mem, Memory.read_write, if_neg hb]
  regs _ := rfl
  engine := rfl
  fault := rfl
  prog := rfl

/-! ### The obligations -/

/-- Settles O34 (rule R182): the words by the decode of opcode 0x09; the bounds check on the exact address decides between the
register write of the cell's content and the fault. -/
theorem loadReadsTheAddressedCell : Obligations.LoadReadsTheAddressedCell := by
  refine ⟨readsTwoRegs_of_decode fun _ hop => decode_of_opcode (op := .load) hop, fun s rs rd offset ho => ⟨?_, ?_⟩⟩
  · intro hlo hhi
    exact ⟨_, exec_load_inBounds ⟨hlo, hhi⟩, regWritten_setReg_word s rd _⟩
  · intro hout
    exact ⟨_, exec_load_outOfBounds (not_inBounds_iff.2 hout), faultTaken_raise_effectiveAddr _ rs s ho⟩

/-- Settles O35 (rule R183): as LOAD, with opcode 0x0A and the memory write of the register's content. -/
theorem storeWritesTheAddressedCell : Obligations.StoreWritesTheAddressedCell := by
  refine ⟨readsTwoRegs_of_decode fun _ hop => decode_of_opcode (op := .store) hop, fun s rs rd offset ho => ⟨?_, ?_⟩⟩
  · intro hlo hhi
    exact ⟨_, exec_store_inBounds ⟨hlo, hhi⟩, cellWritten_setCell s _ _⟩
  · intro hout
    exact ⟨_, exec_store_outOfBounds (not_inBounds_iff.2 hout), faultTaken_raise_effectiveAddr _ rs s ho⟩

end Sys2Proof.Machine

/-! ## Control flow (spec 44_control_flow)

A jump is a write of IP: JMP's a checked one of the exact target, JZ's one of a register's content. -/

namespace Sys2Proof.Machine

/-- Settles O39 (rule R191): the words by the decode of opcode 0x0B; the target is checked as any register write is, so it
replaces the pre-incremented IP or overflows. -/
theorem jmpSetsTheAbsoluteTarget : Obligations.JmpSetsTheAbsoluteTarget := by
  refine ⟨readsOneReg_of_decode fun _ hop => decode_of_opcode (op := .jmp) hop, fun s r offset => ?_⟩
  rw [exec_jmp]
  exact writesOrOverflows_writeReg s .ip _

/-- Settles O40 (rule R192): the words by the decode of opcode 0x0C, whose literal is not used; a taken branch writes what a
register already holds, so it cannot overflow. -/
theorem jzBranchesExactlyOnZero : Obligations.JzBranchesExactlyOnZero := by
  refine ⟨readsTwoRegs_of_decode fun _ hop => decode_of_opcode (op := .jz) hop, fun s g c => ⟨?_, exec_jz_untaken⟩⟩
  intro hzero
  exact ⟨_, exec_jz_taken hzero, regWritten_setReg_word s .ip (s.reg g)⟩

end Sys2Proof.Machine

/-! ## HALT (spec 45_system_halt)

The frame of the halt, and the obligation of the family. -/

namespace Sys2Proof.Machine

/-- A halt changes the engine state and nothing else (rule R201). -/
theorem engineSet_haltEngine (s : State) : EngineSet s (haltEngine s) .halted where
  engine := rfl
  regs _ := rfl
  cells _ := rfl
  fault := rfl
  prog := rfl

/-- Settles O43 (rule R201): the words by the decode of opcode 0x0D, which checks no field; a step at one halts the
pre-incremented state, and a Halted engine steps to itself. -/
theorem haltStopsTheEngine : Obligations.HaltStopsTheEngine := by
  have hwords : ∀ w : InstrWord, w.opcode = 0x0D → decode w = .instr .halt :=
    fun _ hop => decode_of_opcode (op := .halt) hop
  refine ⟨hwords, fun s => ⟨_, exec_halt s, engineSet_haltEngine s⟩, fun s w hw hop => ?_⟩
  refine ⟨haltEngine (preIncrement s), ?_, rfl, ?_, step_halted rfl⟩
  · rw [hw.step_of_instr (hwords w hop), exec_halt]
  · rw [haltEngine_val, hw.preIncrement_ip]

end Sys2Proof.Machine

/-! ## Reset and the start of a run (spec 70_reset_and_hazards)

What the first state of a run holds, and the obligation of the family. -/

namespace Sys2Proof.Machine

/-! ### The first state of a run (rules R36, R143, R260) -/

@[simp] theorem startRun_engine (p : List InstrWord) : (startRun p).engine = .running := rfl
@[simp] theorem startRun_prog (p : List InstrWord) : (startRun p).prog = p := rfl
@[simp] theorem startRun_val_ip (p : List InstrWord) : (startRun p).val .ip = 0 := by
  show (0 : Word).toInt = 0
  decide

/-! ### The obligation -/

/-- Settles O1 (rule R262): index 0 lies inside a non-empty Program, so the fetch answers the word there, the first one. -/
theorem runStartsAtIndexZero : Obligations.RunStartsAtIndexZero := by
  intro w rest hb
  have hip := startRun_val_ip (w :: rest)
  have hlt : (startRun (w :: rest)).val .ip < (startRun (w :: rest)).prog.length := by
    rw [hip, startRun_prog, List.length_cons]
    omega
  obtain ⟨first, hget, hfetch⟩ := fetch_of_inRange (s := startRun (w :: rest)) hb hip.ge hlt
  obtain rfl : w = first := by simpa using hget
  exact ⟨startRun_engine _, hip, hfetch⟩

end Sys2Proof.Machine

/-! ## Encoding (spec 30_encoding)

A word decodes by its canonical form, an encoded record decodes to itself, and what a decode that fails says of the word. -/

namespace Sys2Proof.Machine

/-! ### Encode, then decode -/

/-- The encoded word carries its record's opcode (rules R82, R92). -/
theorem encode_opcode (i : Instr) : (encode i).opcode = i.opcode.code := by
  cases i <;> exact packWord_opcode ..

/-- A literal of `Val` survives its 64-bit pattern (rule R84). -/
theorem toInt_literalField {v : Int} (hv : Config.InVal v) : (literalField v).toInt = v := toInt_ofInt_word hv

/-- The pattern of a decoded literal is the immediate it came from. -/
theorem literalField_literal (w : InstrWord) : literalField w.literal = w.imm := BitVec.ofInt_toInt

/-- Settles O17 (rule R92): the opcode of the encoded word selects the record's row, each register field and `cop` hold the
number of what the record names, and a literal of `Val` survives its pattern. -/
theorem decodeOfEncodeIsTheRecord : Obligations.DecodeOfEncodeIsTheRecord := by
  intro i hi
  rw [decode_of_opcode (encode_opcode i)]
  cases i with
  | const v | load _ _ v | store _ _ v | jmp _ v =>
    have hv : (literalField v).toInt = v := toInt_literalField hi
    simp only [Instr.opcode, encode, packWord_f1, packWord_f2, packWord_literal, needReg_num, hv]
  | add | sub | mul | div | inc | dec | cmp | jz | halt =>
    simp only [Instr.opcode, encode, packWord_f1, packWord_f2, packWord_f3, packWord_cop, needReg_num, needOp_code]

/-! ### Decode, then encode -/

/-- A decoded record holds the fields its opcode uses and the literal of `imm`, and nothing else of the word (rules R83, R84). -/
theorem fields_of_decode {w : InstrWord} {i : Instr} (h : decode w = .instr i) :
    encode i = canonicalWord i.opcode w ∧ i.literal = if i.opcode.usesImm then w.literal else 0 := by
  obtain ⟨a, b, d, ho, ha, hb, hd, rfl⟩ | ⟨a, b, d, ho, ha, hb, hd, rfl⟩ | ⟨a, b, d, ho, ha, hb, hd, rfl⟩ |
    ⟨a, b, d, ho, ha, hb, hd, rfl⟩ | ⟨a, ho, ha, rfl⟩ | ⟨a, ho, ha, rfl⟩ | ⟨o, a, b, d, ho, ha, hb, hd, hc, rfl⟩ |
    ⟨d, ho, hd, rfl⟩ | ⟨a, b, ho, ha, hb, rfl⟩ | ⟨a, b, ho, ha, hb, rfl⟩ | ⟨a, ho, ha, rfl⟩ | ⟨a, b, ho, ha, hb, rfl⟩ |
    ⟨ho, rfl⟩ := decode_cases h
  all_goals
    refine ⟨?_, rfl⟩
    simp [encode, canonicalWord, Instr.opcode, Opcode.uses, Opcode.usesImm, literalField_literal, *]

/-- Settles O18 (rules R89, R92): the record keeps exactly the used fields, so encoding it lays out the canonical word. -/
theorem encodeOfDecodeIsCanonical : Obligations.EncodeOfDecodeIsCanonical := by
  intro w i h
  obtain ⟨hcanonical, -⟩ := fields_of_decode h
  exact ⟨hcanonical, by rw [hcanonical]⟩

/-- The decoder reads the fields the canonical word keeps, and no others (rules R83, R89). -/
theorem decode_canonicalWord {w : InstrWord} {op : Opcode} (h : w.opcode = op.code) :
    decode (canonicalWord op w) = decode w := by
  have hcanonical : (canonicalWord op w).opcode = op.code := (packWord_opcode ..).trans h
  rw [decode_of_opcode hcanonical, decode_of_opcode h]
  cases op <;> simp [canonicalWord, Opcode.uses, Opcode.usesImm, InstrWord.literal]

/-- Settles O19 (rule R89): both words decode as their one canonical word does. -/
theorem ignoredBitsDoNotMatter : Obligations.IgnoredBitsDoNotMatter := by
  intro op w v hw hv hwv
  rw [← decode_canonicalWord hw, hwv, decode_canonicalWord hv]

/-! ### Decoded literals -/

/-- Settles O20 (rule R84): an immediate read as two's complement lies in `Val`, and so does 0. -/
theorem decodedRecordsAreWellFormed : Obligations.DecodedRecordsAreWellFormed := by
  intro w i h
  obtain ⟨-, hliteral⟩ := fields_of_decode h
  rw [Instr.WellFormed, hliteral]
  split
  · exact inVal_toInt w.imm
  · decide

/-! ### Words the spec writes out -/

/-- Settles O21: eight words, each read by the layout of rule R82. -/
theorem specWordsDecode : Obligations.SpecWordsDecode := by
  unfold Obligations.SpecWordsDecode
  decide

/-! ### The order of the decode's checks (rule R128) -/

/-- An opcode with a register field has f1 checked first. -/
theorem decode_checks_f1 {w : InstrWord} {op : Opcode} (hop : w.opcode = op.code) (hu : 1 ≤ op.uses) :
    ∃ k, decode w = needReg w.f1 k := by
  cases op with
  | halt => exact absurd hu (by decide)
  | add | sub | mul | div | inc | dec | cmp | const | load | store | jmp | jz => exact ⟨_, decode_of_opcode hop⟩

/-- An opcode with two register fields has f2 checked right after f1. -/
theorem decode_checks_f2 {w : InstrWord} {op : Opcode} (hop : w.opcode = op.code) (hu : 2 ≤ op.uses) :
    ∃ k : RegId → RegId → Decoded, decode w = needReg w.f1 fun a => needReg w.f2 (k a) := by
  cases op with
  | inc | dec | const | jmp | halt => exact absurd hu (by decide)
  | add | sub | mul | div | cmp | load | store | jz => exact ⟨_, decode_of_opcode hop⟩

/-- An opcode with three register fields has f3 checked right after f1 and f2. -/
theorem decode_checks_f3 {w : InstrWord} {op : Opcode} (hop : w.opcode = op.code) (hu : 3 ≤ op.uses) :
    ∃ k : RegId → RegId → RegId → Decoded,
      decode w = needReg w.f1 fun a => needReg w.f2 fun b => needReg w.f3 (k a b) := by
  cases op with
  | inc | dec | const | load | store | jmp | jz | halt => exact absurd hu (by decide)
  | add | sub | mul | div | cmp => exact ⟨_, decode_of_opcode hop⟩

/-- The first used register field that names no register is the fault, whatever the later ones hold (rules R85, R128). -/
theorem decode_of_noReg {w : InstrWord} {op : Opcode} (hop : w.opcode = op.code) :
    (1 ≤ op.uses → NoReg w.f1 → decode w = .fault (.unknownRegister w.f1)) ∧
    (2 ≤ op.uses → ¬ NoReg w.f1 → NoReg w.f2 → decode w = .fault (.unknownRegister w.f2)) ∧
    (3 ≤ op.uses → ¬ NoReg w.f1 → ¬ NoReg w.f2 → NoReg w.f3 → decode w = .fault (.unknownRegister w.f3)) := by
  refine ⟨fun hu h₁ => ?_, fun hu h₁ h₂ => ?_, fun hu h₁ h₂ h₃ => ?_⟩
  · obtain ⟨k, hk⟩ := decode_checks_f1 hop hu
    rw [hk, needReg_unknown _ h₁]
  · obtain ⟨k, hk⟩ := decode_checks_f2 hop hu
    obtain ⟨a, ha⟩ := exists_num h₁
    rw [hk, ha, needReg_num, needReg_unknown _ h₂]
  · obtain ⟨k, hk⟩ := decode_checks_f3 hop hu
    obtain ⟨a, ha⟩ := exists_num h₁
    obtain ⟨b, hb⟩ := exists_num h₂
    rw [hk, ha, needReg_num, hb, needReg_num, needReg_unknown _ h₃]

/-! ### What a decode fault says of its field -/

/-- The field of a decode fault holds a value outside the closed set it is checked against (rules R85, R86, R88). -/
def NamesNothing : DecodeFault → Prop
  | .unsupportedInstruction opcode => opcode.toNat < 0x01 ∨ 0x0D < opcode.toNat
  | .unknownRegister id => NoReg id
  | .unsupportedOperator cop => 5 < cop.toNat

/-- A register check adds only faults of its own field. -/
theorem needReg_namesNothing {f : RegField} {k : RegId → Decoded} {d : DecodeFault}
    (h : needReg f k = .fault d) (hk : ∀ r, k r = .fault d → NamesNothing d) : NamesNothing d := by
  by_cases hf : NoReg f
  · rw [needReg_unknown k hf] at h
    cases h
    exact hf
  · obtain ⟨r, rfl⟩ := exists_num hf
    exact hk r (needReg_num r k ▸ h)

/-- The operator check likewise. -/
theorem needOp_namesNothing {c : CopField} {k : CmpOp → Decoded} {d : DecodeFault}
    (h : needOp c k = .fault d) (hk : ∀ o, k o = .fault d → NamesNothing d) : NamesNothing d := by
  cases ho : CmpOp.ofField? c with
  | none =>
    have hc := (CmpOp.ofField?_eq_none c).1 ho
    rw [needOp_unsupported k hc] at h
    cases h
    exact hc
  | some o =>
    rw [CmpOp.code_of_ofField? c o ho, needOp_code] at h
    exact hk o h

/-- A decode fault is raised only for a field that names nothing (rules R85, R86, R88). -/
theorem namesNothing_of_decode {w : InstrWord} {d : DecodeFault} (h : decode w = .fault d) : NamesNothing d := by
  cases hop : Opcode.ofField? w.opcode with
  | none =>
    have hout := (Opcode.ofField?_eq_none w.opcode).1 hop
    rw [decode_of_unknown_opcode hout] at h
    cases h
    exact hout
  | some op =>
    rw [decode_of_opcode (Opcode.code_of_ofField? _ _ hop)] at h
    cases op <;> simp only at h
    case halt => cases h
    case inc | dec | const | jmp => exact needReg_namesNothing h fun _ h => nomatch h
    case load | store | jz =>
      exact needReg_namesNothing h fun _ h => needReg_namesNothing h fun _ h => nomatch h
    case cmp =>
      exact needReg_namesNothing h fun _ h => needReg_namesNothing h fun _ h => needReg_namesNothing h fun _ h =>
        needOp_namesNothing h fun _ h => nomatch h
    case add | sub | mul | div =>
      exact needReg_namesNothing h fun _ h => needReg_namesNothing h fun _ h => needReg_namesNothing h fun _ h => nomatch h

end Sys2Proof.Machine

/-! ## What a handler and a step can do (spec 40_fetch_step_cycle, 60_exceptions)

Every handler completes or raises one of its faults; the totality of the step, its precise faults and its effect on the record
follow from that. -/

namespace Sys2Proof.Machine

/-! ### A handler's fault -/

/-- A fault the handler of `i` may raise: of a kind its row of the cause table allows, with the information value that kind
carries, an out-of-bounds address or 0 (rules R212, R220). -/
structure HandlerFault (i : Instr) (k : FaultKind) (n : Int) : Prop where
  allowed : i.WellFormed → MayRaise i k
  info : (k = .outOfBoundsAccess ∧ ¬ InBounds n ∧ (i.WellFormed → -(2 ^ 64) ≤ n ∧ n < 2 ^ 64)) ∨
    ((k = .arithmeticOverflow ∨ k = .divisionByZero ∨ k = .inexactDivision) ∧ n = 0)

/-- The out-of-bounds address of a LOAD or a STORE is a fault its handler may raise (rules R56, R181). -/
theorem handlerFault_outOfBounds {i : Instr} {rs rd : RegId} {off : Int} {s : State}
    (hi : i = .load rs rd off ∨ i = .store rs rd off) (hb : ¬ InBounds (effectiveAddr rs off s)) :
    HandlerFault i .outOfBoundsAccess (effectiveAddr rs off s) where
  allowed _ := by obtain rfl | rfl := hi <;> rfl
  info := by
    refine .inl ⟨rfl, hb, fun hw => ?_⟩
    have ho : Config.InVal off := by obtain rfl | rfl := hi <;> exact hw
    obtain ⟨hlo, hhi⟩ := effectiveAddr_bounds rs s ho
    exact ⟨hlo, by omega⟩

/-- A handler keeps the engine state and the record, or halts, or raises one of its faults. -/
theorem HandlerDid.completed_or_raised {i : Instr} {s t : State} (h : HandlerDid i s t) :
    (t.engine = s.engine ∧ t.fault = s.fault) ∨ (i = .halt ∧ t = haltEngine s) ∨
      ∃ k n, t = raise k n s ∧ HandlerFault i k n := by
  cases h with
  | wrote | stored | untaken => exact .inl ⟨rfl, rfl⟩
  | halted hi => exact .inr (.inl ⟨hi, rfl⟩)
  | badAddress rs rd off hi hb => exact .inr (.inr ⟨_, _, rfl, handlerFault_outOfBounds hi hb⟩)
  | faulted k hk hm => exact .inr (.inr ⟨k, 0, rfl, hm, .inr ⟨hk, rfl⟩⟩)

/-- A handler that takes a Running state to a Faulted one has raised one of its faults. -/
theorem HandlerDid.raised {i : Instr} {s t : State} (h : HandlerDid i s t) (hs : s.engine = .running)
    (ht : t.engine = .faulted) : ∃ k n, t = raise k n s ∧ HandlerFault i k n := by
  obtain ⟨he, -⟩ | ⟨-, rfl⟩ | hraised := h.completed_or_raised
  · rw [he, hs] at ht
    cases ht
  · rw [haltEngine_engine] at ht
    cases ht
  · exact hraised

/-! ### Every handler answers -/

/-- A checked register write completes or overflows; it never stops the machine. -/
theorem writeReg_answers (r : RegId) (v : Int) (s : State) : ∃ t, writeReg r v s = .next t := by
  by_cases hv : Config.InVal v
  · exact ⟨_, writeReg_of_inVal r s hv⟩
  · exact ⟨_, writeReg_of_not_inVal r s hv⟩

/-- Settles O16: a handler ends in a checked register write, or its case distinction answers a state in each case. -/
theorem everyInstructionAnswers : Obligations.EveryInstructionAnswers := by
  intro i s
  cases i with
  | add | sub | mul | inc | dec | cmp | const | jmp => exact writeReg_answers _ _ s
  | div a b d =>
    by_cases hb : s.val b = 0
    · exact ⟨_, exec_div_byZero hb⟩
    by_cases hq : ∃ q : Int, q * s.val b = s.val a
    · obtain ⟨q, hq⟩ := hq
      rw [exec_div_exact hb hq]
      exact writeReg_answers d q s
    · exact ⟨_, exec_div_inexact hb hq⟩
  | load rs rd off =>
    by_cases hb : InBounds (effectiveAddr rs off s)
    · exact ⟨_, exec_load_inBounds hb⟩
    · exact ⟨_, exec_load_outOfBounds hb⟩
  | store rs rd off =>
    by_cases hb : InBounds (effectiveAddr rs off s)
    · exact ⟨_, exec_store_inBounds hb⟩
    · exact ⟨_, exec_store_outOfBounds hb⟩
  | jz g c =>
    by_cases hc : s.val c = 0
    · exact ⟨_, exec_jz_taken hc⟩
    · exact ⟨_, exec_jz_untaken hc⟩
  | halt => exact ⟨_, exec_halt s⟩

/-- Settles O14 (rule R212): the fault of a handler is one its row of the table allows. -/
theorem handlersTakeOnlyTheirFaults : Obligations.HandlersTakeOnlyTheirFaults := by
  intro i s t hi hs hexec ht
  obtain ⟨k, n, rfl, hfault⟩ := (exec_cases hexec).raised hs ht
  exact hfault.allowed hi

/-! ### The step -/

/-- Settles O9 (rule R129). -/
theorem stepRunsTheDecodedInstruction : Obligations.StepRunsTheDecodedInstruction :=
  fun _ _ _ hw hd => ⟨hw.step_of_instr hd, hw.regWritten_preIncrement⟩

/-- Settles O5 (rule R132): within the bound a fetch answers a word or finds IP out of range, and a word that decodes runs a
handler, which answers. -/
theorem stepAnswersWithinTheProgramBound : Obligations.StepAnswersWithinTheProgramBound := by
  intro s hb
  by_cases he : s.engine = .running
  · obtain ⟨hlong, -⟩ | ⟨-, hout, -⟩ | ⟨-, hnonneg, -, w, hword, -⟩ := fetch_cases s
    · omega
    · exact ⟨_, step_of_outOfRange he hb hout⟩
    · have hw : AtWord s w := ⟨he, hb, hnonneg, hword⟩
      cases hd : decode w with
      | instr i =>
        rw [hw.step_of_instr hd]
        exact everyInstructionAnswers i _
      | fault d => exact ⟨_, hw.step_of_fault hd⟩
  · exact ⟨s, step_of_not_running he⟩

/-- Settles O6 (log entry 2): the fetch finds the Program too long before anything else. -/
theorem overlongProgramStopsTheStep : Obligations.OverlongProgramStopsTheStep := by
  intro s he hlong
  obtain ⟨-, hf⟩ | ⟨hb, -⟩ | ⟨hb, -⟩ := fetch_cases s
  · rw [step_running he, hf]
  · omega
  · omega

/-- Settles O11 (rule R128): the first field that fails its check is the decode fault, taken on the pre-incremented state. -/
theorem decodeChecksFieldsInOrder : Obligations.DecodeChecksFieldsInOrder := by
  intro s w op hw hop
  have htaken : ∀ d, decode w = .fault d →
      ∃ t, step s = .next t ∧ FaultTaken (preIncrement s) t (decodeFaultKind d) (decodeFaultInfo d) :=
    fun d hd => ⟨_, hw.step_of_fault hd, faultTaken_raiseDecode d _⟩
  obtain ⟨hf1, hf2, hf3⟩ := decode_of_noReg hop
  refine ⟨preIncrement s, hw.regWritten_preIncrement, ?_, ?_, ?_, ?_⟩
  · exact fun hu h₁ => htaken _ (hf1 hu h₁)
  · exact fun hu h₁ h₂ => htaken _ (hf2 hu h₁ h₂)
  · exact fun hu h₁ h₂ h₃ => htaken _ (hf3 hu h₁ h₂ h₃)
  · rintro rfl h₁ h₂ h₃ hc
    obtain ⟨-, -, -, hcop⟩ := decode_cmp_checks_in_order hop
    exact htaken _ (hcop h₁ h₂ h₃ hc)

/-- A step that fetches a word and ends Faulted has raised a fault on the pre-incremented state, and done nothing else. -/
theorem AtWord.raised {s t : State} {w : InstrWord} (hw : AtWord s w) (hstep : step s = .next t)
    (ht : t.engine = .faulted) : ∃ k n, t = raise k n (preIncrement s) := by
  cases hd : decode w with
  | fault d =>
    rw [hw.step_of_fault hd, raiseDecode_eq] at hstep
    cases hstep
    exact ⟨_, _, rfl⟩
  | instr i =>
    rw [hw.step_of_instr hd] at hstep
    obtain ⟨k, n, hraised, -⟩ := (exec_cases hstep).raised hw.running ht
    exact ⟨k, n, hraised⟩

/-- Settles O12 (rules R230, R231): such a step has changed the engine state, the record and, by the pre-increment, IP. -/
theorem faultsArePrecise : Obligations.FaultsArePrecise := by
  intro s t w hw hstep ht
  obtain ⟨k, n, rfl⟩ := hw.raised hstep ht
  have hip := hw.preIncrement_ip
  exact ⟨hip, hip, fun _ hr => preIncrement_reg hr, fun _ => rfl, rfl⟩

/-- Settles O15 (rule R32): a step that takes no fault keeps the record. -/
theorem faultRecordChangesOnlyOnAFault : Obligations.FaultRecordChangesOnlyOnAFault := by
  intro s t hstep hne
  obtain ⟨-, rfl⟩ | ⟨he, -, -, rfl⟩ | ⟨w, d, hw, -, rfl⟩ | ⟨w, i, hw, -, hexec⟩ := step_cases hstep
  · exact absurd rfl hne
  · exact ⟨he, rfl⟩
  · rw [raiseDecode_eq]
    exact ⟨hw.running, rfl⟩
  · obtain ⟨-, hf⟩ | ⟨-, rfl⟩ | ⟨k, n, rfl, -⟩ := (exec_cases hexec).completed_or_raised
    · exact absurd hf hne
    · exact absurd rfl hne
    · exact ⟨hw.running, rfl⟩

end Sys2Proof.Machine

/-! ## The invariant (spec 10_state, 20_memory, 60_exceptions)

Reset meets it. A step keeps the Program, changes the memory only by a STORE, and leaves an engine and a record that fit
together. -/

namespace Sys2Proof.Machine

/-! ### Reset -/

@[simp] theorem assertRst_reg (s : State) (r : RegId) : (assertRst s).reg r = 0 := by
  cases r <;> rfl

/-- Settles O2 (rules R36, R260). -/
theorem resetClearsAllStateButTheProgram : Obligations.ResetClearsAllStateButTheProgram := by
  intro s
  have hzero : (0 : Word).toInt = 0 := by decide
  have hinfo : (0 : InfoWord).toInt = 0 := by decide
  refine ⟨fun r => ?_, fun _ => rfl, rfl, rfl, hinfo, hzero, rfl⟩
  rw [State.val, assertRst_reg, hzero]

/-- Reset meets the invariant over any Program within the bound. -/
theorem inv_assertRst {s : State} (hb : (s.prog.length : Int) ≤ Config.vMax) : (assertRst s).Inv where
  memory := State.reset_mem_wf
  program := hb
  engine := rfl

/-- Settles O3: the first state of a run is a reset over its Program, and `State.reset` is one over the empty Program. -/
theorem resetMeetsTheInvariant : Obligations.ResetMeetsTheInvariant :=
  ⟨inv_assertRst (s := State.reset) (by decide), fun p hb => inv_assertRst (s := loadProgram p State.reset) hb⟩

/-! ### The Program and the memory -/

/-- No handler writes the Program (rule R51). -/
theorem HandlerDid.prog_eq {i : Instr} {s t : State} (h : HandlerDid i s t) : t.prog = s.prog := by
  cases h <;> rfl

/-- No step writes the Program (rule R51). -/
theorem step_prog {s t : State} (h : step s = .next t) : t.prog = s.prog := by
  obtain ⟨-, rfl⟩ | ⟨-, -, -, rfl⟩ | ⟨_, _, -, -, rfl⟩ | ⟨w, i, -, -, hexec⟩ := step_cases h
  · rfl
  · rfl
  · rw [raiseDecode_eq]
    rfl
  · exact (exec_cases hexec).prog_eq

/-- A handler keeps the memory, or is an in-bounds STORE and writes its one cell (rules R54, R183). -/
theorem HandlerDid.mem_cases {i : Instr} {s t : State} (h : HandlerDid i s t) :
    t.mem = s.mem ∨ ∃ rs rd off, i = .store rs rd off ∧ InBounds (effectiveAddr rs off s) ∧
      t.mem = s.mem.write (effectiveAddr rs off s).toNat (s.reg rd) := by
  cases h with
  | stored rs rd off hi hb => exact .inr ⟨rs, rd, off, hi, hb, rfl⟩
  | wrote | halted | untaken | badAddress | faulted => exact .inl rfl

/-- The same for a step; the address is computed on the pre-incremented state. -/
theorem step_mem_cases {s t : State} (h : step s = .next t) :
    t.mem = s.mem ∨ ∃ w rs rd off, AtWord s w ∧ decode w = .instr (.store rs rd off) ∧
      InBounds (effectiveAddr rs off (preIncrement s)) ∧
      t.mem = s.mem.write (effectiveAddr rs off (preIncrement s)).toNat ((preIncrement s).reg rd) := by
  obtain ⟨-, rfl⟩ | ⟨-, -, -, rfl⟩ | ⟨_, _, -, -, rfl⟩ | ⟨w, i, hw, hd, hexec⟩ := step_cases h
  · exact .inl rfl
  · exact .inl rfl
  · rw [raiseDecode_eq]
    exact .inl rfl
  · obtain hmem | ⟨rs, rd, off, rfl, hb, hmem⟩ := (exec_cases hexec).mem_cases
    · exact .inl hmem
    · exact .inr ⟨w, rs, rd, off, hw, hd, hb, hmem⟩

/-- A step keeps the memory's canonical form. -/
theorem step_mem_wf {s t : State} (hwf : s.mem.wf) (h : step s = .next t) : t.mem.wf := by
  obtain hmem | ⟨w, rs, rd, off, -, -, hb, hmem⟩ := step_mem_cases h
  · rwa [hmem]
  · rw [hmem]
    exact Memory.wf_write _ _ _ hwf (toNat_lt_memCap hb)

/-! ### The fault record -/

/-- A decode fault is recorded with its row of the cause table (rule R212). -/
theorem legal_raiseDecode {d : DecodeFault} {s : State} {len : Nat} (hd : NamesNothing d)
    (hip : 1 ≤ s.val .ip ∧ s.val .ip ≤ len) : (raiseDecode d s).fault.Legal len := by
  have hinfo := (faultTaken_raiseDecode d s).info
  cases d with
  | unsupportedInstruction b | unknownRegister b | unsupportedOperator b =>
    have hwidth := b.isLt
    simp only [NamesNothing, NoReg] at hd
    simp only [decodeFaultInfo] at hinfo
    exact ⟨by omega, hip⟩

/-- A handler's fault is recorded with its row of the cause table (rule R212). -/
theorem HandlerFault.legal_raise {i : Instr} {k : FaultKind} {n : Int} (h : HandlerFault i k n) (hi : i.WellFormed)
    {s : State} {len : Nat} (hip : 1 ≤ s.val .ip ∧ s.val .ip ≤ len) : (raise k n s).fault.Legal len := by
  obtain ⟨rfl, hb, hfits⟩ | ⟨hk, rfl⟩ := h.info
  · obtain ⟨hlo, hhi⟩ := hfits hi
    have hinfo : (raise .outOfBoundsAccess n s).fault.info.toInt = n := toInt_ofInt_info hlo hhi
    exact ⟨by rwa [hinfo], hip⟩
  · have hinfo : (raise k 0 s).fault.info.toInt = 0 := toInt_ofInt_info (by decide) (by decide)
    obtain rfl | rfl | rfl := hk
    all_goals exact ⟨hinfo, hip⟩

theorem HandlerFault.kind_ne_none {i : Instr} {k : FaultKind} {n : Int} (h : HandlerFault i k n) : k ≠ .none := by
  obtain ⟨rfl, -⟩ | ⟨rfl | rfl | rfl, -⟩ := h.info <;> decide

theorem decodeFaultKind_ne_none (d : DecodeFault) : decodeFaultKind d ≠ .none := by
  cases d <;> simp [decodeFaultKind]

/-! ### The engine and the record -/

/-- IP as the handler sees it stands just after a word of the Program. -/
theorem AtWord.preIncrement_ip_bounds {s : State} {w : InstrWord} (h : AtWord s w) :
    1 ≤ (preIncrement s).val .ip ∧ (preIncrement s).val .ip ≤ s.prog.length := by
  have hlt := h.ip_lt
  have hnonneg := h.nonneg
  rw [h.preIncrement_ip]
  omega

/-- An IP outside the Program is recorded by the fetch (rules R122, R212). -/
theorem engineLegal_outOfRange {s : State} (hr : s.val .ip < 0 ∨ (s.prog.length : Int) ≤ s.val .ip) :
    (raise .programCounterOutOfRange (s.val .ip) s).EngineLegal :=
  ⟨by simp, rfl, ⟨(faultTaken_raise_val .programCounterOutOfRange .ip s).info, hr⟩, .inl rfl⟩

/-- A word that fails to decode is recorded as what raised the fault (rules R127, R128, R212). -/
theorem AtWord.engineLegal_of_fault {s : State} {w : InstrWord} {d : DecodeFault} (hw : AtWord s w)
    (hd : decode w = .fault d) : (raiseDecode d (preIncrement s)).EngineLegal := by
  have hlegal := legal_raiseDecode (namesNothing_of_decode hd) hw.preIncrement_ip_bounds
  have hinfo := (faultTaken_raiseDecode d (preIncrement s)).info
  rw [raiseDecode_eq] at *
  exact ⟨decodeFaultKind_ne_none d, rfl, hlegal, .inr ⟨w, hw.wordBefore_eq, .inl ⟨d, hd, rfl, hinfo⟩⟩⟩

/-- A handler leaves an engine and a record that fit together (rules R31, R32, R201, R212, R230). -/
theorem AtWord.engineLegal_of_instr {s t : State} {w : InstrWord} {i : Instr} (hw : AtWord s w)
    (hclear : s.fault = FaultRecord.clear) (hd : decode w = .instr i) (hexec : exec i (preIncrement s) = .next t) :
    t.EngineLegal := by
  have hi : i.WellFormed := decodedRecordsAreWellFormed w i hd
  obtain ⟨he, hf⟩ | ⟨rfl, rfl⟩ | ⟨k, n, rfl, hfault⟩ := (exec_cases hexec).completed_or_raised
  · rw [State.EngineLegal, he, preIncrement_engine, hw.running]
    exact hf.trans hclear
  · exact ⟨hclear, hw.preIncrement_ip_bounds, w, hw.wordBefore_eq, hd⟩
  · exact ⟨hfault.kind_ne_none, rfl, hfault.legal_raise hi hw.preIncrement_ip_bounds,
      .inr ⟨w, hw.wordBefore_eq, .inr ⟨i, hd, hfault.allowed hi⟩⟩⟩

/-- A Running engine that meets the invariant has recorded no fault. -/
theorem State.Inv.fault_clear {s : State} (h : s.Inv) (he : s.engine = .running) : s.fault = FaultRecord.clear := by
  have hengine := h.engine
  rwa [State.EngineLegal, he] at hengine

/-- A step keeps the fit of the engine and the record. -/
theorem step_engineLegal {s t : State} (hinv : s.Inv) (h : step s = .next t) : t.EngineLegal := by
  obtain ⟨-, rfl⟩ | ⟨-, -, hr, rfl⟩ | ⟨w, d, hw, hd, rfl⟩ | ⟨w, i, hw, hd, hexec⟩ := step_cases h
  · exact hinv.engine
  · exact engineLegal_outOfRange hr
  · exact hw.engineLegal_of_fault hd
  · exact hw.engineLegal_of_instr (hinv.fault_clear hw.running) hd hexec

/-- Settles O4: a step keeps the memory's canonical form, the Program, and the fit of the engine and the record. -/
theorem stepKeepsTheInvariant : Obligations.StepKeepsTheInvariant := fun _ _ hinv hstep =>
  { memory := step_mem_wf hinv.memory hstep
    program := (step_prog hstep).symm ▸ hinv.program
    engine := step_engineLegal hinv hstep }

end Sys2Proof.Machine

/-! ## Division and counting (spec 41_arithmetic sections 5 and 6)

The exact quotient and its one overflow, the rounding of the other values of `DIV_INEXACT`, and INC repeated. -/

namespace Sys2Proof.Machine

/-! ### The exact quotient -/

/-- Settles O25 (rules R155, R156): the words by the decode of opcode 0x04, and one clause for each case of the division. -/
theorem divWritesTheExactQuotient : Obligations.DivWritesTheExactQuotient := by
  refine ⟨readsThreeRegs_of_decode fun _ hop => decode_of_opcode (op := .div) hop, fun s a b d => ⟨?_, ?_, ?_⟩⟩
  · exact fun hzero => ⟨_, exec_div_byZero hzero, faultTaken_raise _ s (by decide) (by decide)⟩
  · exact fun hb hq => ⟨_, exec_div_inexact hb hq, faultTaken_raise _ s (by decide) (by decide)⟩
  · intro hb q hq
    rw [exec_div_exact hb hq]
    exact writesOrOverflows_writeReg s d q

/-- The exact quotient of two values of `Val` leaves `Val` for `VMIN / -1` alone: it is no larger than the dividend, so it can
only be 2^63. -/
theorem quotient_not_inVal_iff {a b q : Int} (ha : Config.InVal a) (hb : b ≠ 0) (hq : q * b = a) :
    ¬ Config.InVal q ↔ a = Config.vMin ∧ b = -1 := by
  have hle : |q| ≤ |a| := by
    rw [← hq, abs_mul]
    exact le_mul_of_one_le_right (abs_nonneg q) (Int.one_le_abs hb)
  rw [Int.abs_eq_natAbs, Int.abs_eq_natAbs] at hle
  simp only [Config.InVal, Config.vMin_eq, Config.vMax_eq] at *
  constructor
  · intro hout
    obtain rfl : q = 9223372036854775808 := by omega
    omega
  · rintro ⟨rfl, rfl⟩
    omega

/-- Settles O26 (rules R155, R220): of the three faults of DIV only the checked write is an overflow, and it is one exactly when
the quotient leaves `Val`. -/
theorem divOverflowsOnlyForVminByMinusOne : Obligations.DivOverflowsOnlyForVminByMinusOne := by
  intro s a b d hs
  by_cases hb : s.val b = 0
  · exact ⟨_, exec_div_byZero hb, by simp [hb]⟩
  by_cases hq : ∃ q : Int, q * s.val b = s.val a
  · obtain ⟨q, hq⟩ := hq
    have hiff := quotient_not_inVal_iff (s.inVal_val a) hb hq
    rw [exec_div_exact hb hq, ← hiff]
    by_cases hv : Config.InVal q
    · exact ⟨_, writeReg_of_inVal d s hv, by simp [hs, hv]⟩
    · exact ⟨_, writeReg_of_not_inVal d s hv, by simp [hv]⟩
  · have hne : s.val b ≠ -1 := fun hminus => hq ⟨-s.val a, by rw [hminus]; ring⟩
    exact ⟨_, exec_div_inexact hb hq, by simp [hne]⟩

/-! ### Rounding -/

/-- Under `floor` the quotient is the flooring one, exact or not. -/
theorem divide_floor {a b : Int} (hb : b ≠ 0) : divide .floor a b = .value (a.fdiv b) := by
  by_cases hdvd : b ∣ a
  · exact divide_exact _ hb (Int.fdiv_mul_cancel hdvd)
  · simp [divide, hb, hdvd]

/-- Under `trunc` the quotient is the truncating one, exact or not. -/
theorem divide_trunc {a b : Int} (hb : b ≠ 0) : divide .trunc a b = .value (a.tdiv b) := by
  by_cases hdvd : b ∣ a
  · exact divide_exact _ hb (Int.tdiv_mul_cancel hdvd)
  · simp [divide, hb, hdvd]

/-- The flooring remainder has the divisor's sign and is smaller. -/
theorem fmod_sign_and_size (a : Int) {b : Int} (hb : b ≠ 0) : 0 ≤ a.fmod b * b ∧ |a.fmod b| < |b| := by
  simp only [Int.abs_eq_natAbs]
  obtain hneg | hpos := lt_or_gt_of_ne hb
  · have hsign := Int.fmod_nonneg_of_pos (-a) (neg_pos.2 hneg)
    have hsize := Int.fmod_lt_of_pos (-a) (neg_pos.2 hneg)
    rw [Int.neg_fmod_neg] at hsign hsize
    exact ⟨mul_nonneg_of_nonpos_of_nonpos (by omega) hneg.le, by omega⟩
  · have hsign := Int.fmod_nonneg_of_pos a hpos
    have hsize := Int.fmod_lt_of_pos a hpos
    exact ⟨mul_nonneg hsign hpos.le, by omega⟩

/-- The truncating remainder has the dividend's sign and is smaller than the divisor. -/
theorem tmod_sign_and_size (a : Int) {b : Int} (hb : b ≠ 0) : 0 ≤ a.tmod b * a ∧ |a.tmod b| < |b| := by
  simp only [Int.abs_eq_natAbs]
  constructor
  · obtain hneg | hnonneg := lt_or_ge a 0
    · have hsign := Int.tmod_nonneg b (neg_nonneg.2 hneg.le)
      rw [Int.neg_tmod] at hsign
      exact mul_nonneg_of_nonpos_of_nonpos (by omega) hneg.le
    · exact mul_nonneg (Int.tmod_nonneg b hnonneg) hnonneg
  · have hsize := Nat.mod_lt a.natAbs (Int.natAbs_pos.2 hb)
    rw [← Int.natAbs_tmod] at hsize
    omega

/-- Settles O27 (rule R155): the remainder left by each rounding is the library's, whose sign and size fix the direction. -/
theorem divRoundingParameters : Obligations.DivRoundingParameters := by
  intro a b hb
  refine ⟨⟨_, divide_floor hb, ?_⟩, ⟨_, divide_trunc hb, ?_⟩, fun q mode => divide_exact mode hb⟩
  · rw [mul_comm (a.fdiv b), ← Int.fmod_def]
    exact fmod_sign_and_size a hb
  · rw [mul_comm (a.tdiv b), ← Int.tmod_def]
    exact tmod_sign_and_size a hb

/-! ### Repeated INC -/

/-- A register holds what it holds. -/
theorem RegWritten.refl (s : State) (d : RegId) : RegWritten s s d (s.val d) where
  value := rfl
  others _ _ := rfl
  cells _ := rfl
  engine := rfl
  fault := rfl
  prog := rfl

/-- The later of two writes of one register is what remains. -/
theorem RegWritten.trans {s t u : State} {d : RegId} {v v' : Int} (h : RegWritten s t d v) (h' : RegWritten t u d v') :
    RegWritten s u d v' where
  value := h'.value
  others r hr := (h'.others r hr).trans (h.others r hr)
  cells a := (h'.cells a).trans (h.cells a)
  engine := h'.engine.trans h.engine
  fault := h'.fault.trans h.fault
  prog := h'.prog.trans h.prog

/-- `n` INCs add `n` to the register as long as the sum stays in `Val`. -/
theorem execTimes_inc (r : RegId) (n : Nat) (s : State) (hn : s.val r + n ≤ Config.vMax) :
    ∃ t, execTimes n (.inc r) s = .next t ∧ RegWritten s t r (s.val r + n) := by
  induction n generalizing s with
  | zero => exact ⟨s, rfl, by simpa using RegWritten.refl s r⟩
  | succ n ih =>
    have hlo := (s.inVal_val r).1
    have hv : Config.InVal (s.val r + 1) := ⟨by omega, by omega⟩
    have hfirst := regWritten_setReg s r hv
    have hvalue := hfirst.value
    obtain ⟨t, hrun, hrest⟩ := ih (s.setReg r (BitVec.ofInt 64 (s.val r + 1))) (by omega)
    refine ⟨t, ?_, ?_⟩
    · rw [execTimes, exec_inc, writeReg_of_inVal r s hv]
      exact hrun
    · rw [hvalue] at hrest
      convert hfirst.trans hrest using 1
      omega

/-- Settles O30 (rule R158): the case of a register that starts at 0. -/
theorem repeatedIncCounts : Obligations.RepeatedIncCounts := by
  intro s r n hzero hn
  have hrun := execTimes_inc r n s (by omega)
  rwa [hzero, zero_add] at hrun

end Sys2Proof.Machine

/-! ## Memory accesses (spec 20_memory, 43_load_store)

What an address records, what a LOAD after a STORE reads, and who reads and writes a cell. -/

namespace Sys2Proof.Machine

/-- Settles O33 (rule R181, decision D19). -/
theorem effectiveAddressFitsTheInfoField : Obligations.EffectiveAddressFitsTheInfoField := by
  intro s rs offset ho
  obtain ⟨hlo, hhi⟩ := effectiveAddr_bounds rs s ho
  exact ⟨hlo, hhi, toInt_ofInt_info hlo (by omega)⟩

/-- Two addresses inside the memory name one cell exactly when they are equal. -/
theorem toNat_eq_iff_of_inBounds {ea ea' : Int} (h : InBounds ea) (h' : InBounds ea') : ea'.toNat = ea.toNat ↔ ea' = ea := by
  obtain ⟨hlo, -⟩ := h
  obtain ⟨hlo', -⟩ := h'
  omega

/-- Settles O36 (rules R54, R58): a STORE changes no register, so the LOAD's address is the same after it, and its cell reads as
the memory's law of a read after a write says. -/
theorem loadReturnsTheLatestStore : Obligations.LoadReturnsTheLatestStore := by
  intro s rs rd rs' rd' offset offset' hb hb'
  refine ⟨_, _, exec_store_inBounds hb, exec_load_inBounds (s := s.setCell _ _) hb', ?_⟩
  rw [State.setReg_reg, if_pos rfl, State.setCell_mem, Memory.read_write]
  exact if_congr (toNat_eq_iff_of_inBounds hb hb') rfl rfl

/-- Settles O37 (rule R63): a step that changes the memory ran an in-bounds STORE, and a cell other than its own reads as
before. -/
theorem onlyStoreChangesACell : Obligations.OnlyStoreChangesACell := by
  intro s t a hstep hne
  obtain hmem | ⟨w, rs, rd, off, hw, hd, hb, hmem⟩ := step_mem_cases hstep
  · exact absurd (by rw [hmem]) hne
  · refine ⟨w, rs, rd, off, hw, hd, ?_⟩
    rw [hmem, Memory.read_write] at hne
    have ha : a = (effectiveAddr rs off (preIncrement s)).toNat := by
      by_contra hother
      exact hne (if_neg hother)
    rw [ha, Int.toNat_of_nonneg hb.1]

/-! ### What a handler depends on -/

/-- Two answers that agree but for the memory, which is the same where the memories `m` and `s.mem` were, and for the Program,
which is `p` in the second. -/
def SameUnder (s : State) (m : Memory) (p : List InstrWord) (o o' : Result) : Prop :=
  ∃ t m', o = .next t ∧ o' = .next { t with mem := m', prog := p } ∧ (m = s.mem → m' = t.mem)

/-- A state with its memory untouched. -/
theorem sameUnder_next {s t : State} (m : Memory) (p : List InstrWord) (ht : t.mem = s.mem) :
    SameUnder s m p (.next t) (.next { t with mem := m, prog := p }) :=
  ⟨t, m, rfl, rfl, fun hm => hm.trans ht.symm⟩

/-- A checked register write reads neither the memory nor the Program. -/
theorem sameUnder_writeReg (r : RegId) (v : Int) (s : State) (m : Memory) (p : List InstrWord) :
    SameUnder s m p (writeReg r v s) (writeReg r v { s with mem := m, prog := p }) := by
  by_cases hv : Config.InVal v
  · rw [writeReg_of_inVal r s hv, writeReg_of_inVal r _ hv]
    exact sameUnder_next (t := s.setReg r _) m p rfl
  · rw [writeReg_of_not_inVal r s hv, writeReg_of_not_inVal r _ hv]
    exact sameUnder_next (t := raise _ 0 s) m p rfl

/-- A handler computes from the registers, and a LOAD's from its one cell besides; a STORE's writes the memory it is given. -/
theorem exec_sameUnder (i : Instr) (s : State) (m : Memory) (p : List InstrWord)
    (hagree : ∀ rs rd off, i = .load rs rd off → InBounds (effectiveAddr rs off s) →
      m.read (effectiveAddr rs off s).toNat = s.mem.read (effectiveAddr rs off s).toNat) :
    SameUnder s m p (exec i s) (exec i { s with mem := m, prog := p }) := by
  cases i with
  | add | sub | mul | inc | dec | cmp | const | jmp => exact sameUnder_writeReg _ _ s m p
  | halt => exact sameUnder_next (t := haltEngine s) m p rfl
  | div a b d =>
    by_cases hb : s.val b = 0
    · rw [exec_div_byZero hb, exec_div_byZero (s := { s with mem := m, prog := p }) hb]
      exact sameUnder_next (t := raise _ 0 s) m p rfl
    by_cases hq : ∃ q : Int, q * s.val b = s.val a
    · obtain ⟨q, hq⟩ := hq
      rw [exec_div_exact hb hq, exec_div_exact (s := { s with mem := m, prog := p }) hb hq]
      exact sameUnder_writeReg d q s m p
    · rw [exec_div_inexact hb hq, exec_div_inexact (s := { s with mem := m, prog := p }) hb hq]
      exact sameUnder_next (t := raise _ 0 s) m p rfl
  | jz g c =>
    by_cases hc : s.val c = 0
    · rw [exec_jz_taken hc, exec_jz_taken (s := { s with mem := m, prog := p }) hc]
      exact sameUnder_next (t := s.setReg .ip _) m p rfl
    · rw [exec_jz_untaken hc, exec_jz_untaken (s := { s with mem := m, prog := p }) hc]
      exact sameUnder_next m p rfl
  | load rs rd off =>
    by_cases hb : InBounds (effectiveAddr rs off s)
    · have hcell := hagree rs rd off rfl hb
      rw [exec_load_inBounds hb, exec_load_inBounds (s := { s with mem := m, prog := p }) hb, ← hcell]
      exact sameUnder_next (t := s.setReg rd _) m p rfl
    · rw [exec_load_outOfBounds hb, exec_load_outOfBounds (s := { s with mem := m, prog := p }) hb]
      exact sameUnder_next (t := raise _ _ s) m p rfl
  | store rs rd off =>
    by_cases hb : InBounds (effectiveAddr rs off s)
    · rw [exec_store_inBounds hb, exec_store_inBounds (s := { s with mem := m, prog := p }) hb]
      exact ⟨_, m.write _ (s.reg rd), rfl, rfl, fun hm => by rw [hm]; rfl⟩
    · rw [exec_store_outOfBounds hb, exec_store_outOfBounds (s := { s with mem := m, prog := p }) hb]
      exact sameUnder_next (t := raise _ _ s) m p rfl

/-- Settles O38 (rule R63): the case of the same Program, which the handler keeps. -/
theorem onlyLoadReadsACell : Obligations.OnlyLoadReadsACell := by
  intro i s m hagree
  obtain ⟨t, m', hexec, hexec', -⟩ := exec_sameUnder i s m s.prog hagree
  exact ⟨t, _, hexec, hexec', rfl, rfl, rfl, (exec_cases hexec).prog_eq.symm⟩

end Sys2Proof.Machine

/-! ## Jumps out of the Program and jumps in place (spec 44_control_flow, 30_encoding section 7) -/

namespace Sys2Proof.Machine

/-- Settles O41 (rules R122, R193): the jump writes IP and nothing else, so the next fetch finds IP out of range. -/
theorem badJumpTargetFaultsAtTheNextFetch : Obligations.BadJumpTargetFaultsAtTheNextFetch := by
  intro s r offset hs hb hv hout
  have hjump := regWritten_setReg s .ip hv
  have hip := hjump.value
  have hnext := step_of_outOfRange (hjump.engine.trans hs) (by rwa [hjump.prog]) (by rwa [hip, hjump.prog])
  refine ⟨s.setReg .ip (BitVec.ofInt 64 (s.val r + offset)), _, writeReg_of_inVal .ip s hv, hjump.engine.trans hs, hnext,
    ?_, hip⟩
  simpa only [hip] using faultTaken_raise_val .programCounterOutOfRange .ip (s.setReg .ip (BitVec.ofInt 64 (s.val r + offset)))

/-- A jump to IP itself keeps the state. -/
theorem exec_jmp_ip_zero (s : State) : exec (.jmp .ip 0) s = .next s := by
  rw [exec_jmp, add_zero]
  exact (writeReg_toInt .ip (s.reg .ip) s).trans (congrArg _ (s.setReg_reg_self .ip))

/-- A jump one back from the incremented IP undoes the pre-increment. -/
theorem AtWord.exec_jmp_ip_minus_one {s : State} {w : InstrWord} (hw : AtWord s w) :
    exec (.jmp .ip (-1)) (preIncrement s) = .next s := by
  have htarget : (preIncrement s).val .ip + -1 = (s.reg .ip).toInt := by
    rw [hw.preIncrement_ip, Int.add_neg_cancel_right]
    rfl
  rw [exec_jmp, htarget, writeReg_toInt, preIncrement, State.setReg_setReg, State.setReg_reg_self]

/-- Settles O42. -/
theorem jmpIpIdioms : Obligations.JmpIpIdioms :=
  ⟨exec_jmp_ip_zero, fun _ _ hw hd => (hw.step_of_instr hd).trans hw.exec_jmp_ip_minus_one⟩

end Sys2Proof.Machine

/-! ## Whole-machine rules (spec 10_state, 20_memory, 70_reset_and_hazards)

What a handler keeps, what every run keeps, and a run under a step budget. -/

namespace Sys2Proof.Machine

/-! ### The register a handler writes -/

/-- A handler changes no register but the one it reports (rule R24). -/
theorem HandlerDid.reg_eq {i : Instr} {s t : State} (h : HandlerDid i s t) {r : RegId} (hr : regWritten i s ≠ some r) :
    t.reg r = s.reg r := by
  cases h with
  | wrote d v hd =>
    have hne : r ≠ d := fun hrd => hr (hrd ▸ hd)
    rw [State.setReg_reg, if_neg hne]
  | stored | halted | untaken | badAddress | faulted => rfl

/-- Settles O44 (rule R24, decision D4). -/
theorem onlyTheWrittenRegisterChanges : Obligations.OnlyTheWrittenRegisterChanges :=
  fun _ _ _ _ hexec hr => (exec_cases hexec).reg_eq hr

/-- The register a handler writes is the one its record names; a taken JZ writes IP. -/
theorem targetOf_of_regWritten {i : Instr} {s : State} {r : RegId} (h : regWritten i s = some r) : targetOf i = some r := by
  cases i with
  | jz g c =>
    simp only [regWritten] at h
    split at h
    · exact h
    · cases h
  | add | sub | mul | div | inc | dec | cmp | const | load | store | jmp | halt => exact h

/-! ### What a run keeps -/

/-- What every step keeps, every run keeps. -/
theorem run_invariant {P : State → Prop} (hstep : ∀ s t, P s → step s = .next t → P t) {n : Nat} {s t : State}
    (hs : P s) (h : core.run n s = .next t) : P t := by
  induction n generalizing s with
  | zero =>
    cases h
    exact hs
  | succ n ih =>
    obtain ⟨u, hu, hrest⟩ := run_succ_cases h
    exact ih (hstep s u hs hu) hrest

/-- Settles O46 (rule R51). -/
theorem programIsImmutable : Obligations.ProgramIsImmutable := fun _ s _ hrun =>
  run_invariant (P := fun u => u.prog = s.prog) (fun _ _ hu hstep => (step_prog hstep).trans hu) rfl hrun

/-- No word of the Program decodes to an instruction with SP as destination. -/
def NeverNamesSp (p : List InstrWord) : Prop := ∀ w ∈ p, ∀ i, decode w = .instr i → targetOf i ≠ some .sp

/-- A step over such a Program keeps SP: the pre-increment writes IP, and the handler what its record names (decision D6). -/
theorem step_reg_sp {s t : State} (hsp : NeverNamesSp s.prog) (h : step s = .next t) : t.reg .sp = s.reg .sp := by
  have hpre : (preIncrement s).reg .sp = s.reg .sp := preIncrement_reg (by decide)
  obtain ⟨-, rfl⟩ | ⟨-, -, -, rfl⟩ | ⟨_, _, -, -, rfl⟩ | ⟨w, i, hw, hd, hexec⟩ := step_cases h
  · rfl
  · rfl
  · rw [raiseDecode_eq]
    exact hpre
  · have htarget := hsp w (List.mem_of_getElem? hw.word) i hd
    exact ((exec_cases hexec).reg_eq fun hr => htarget (targetOf_of_regWritten hr)).trans hpre

/-- Settles O45 (rule R29): a run keeps the Program, hence at every step the premise on its words. -/
theorem spIsUntouchedUnlessNamed : Obligations.SpIsUntouchedUnlessNamed := by
  intro n s t hsp hrun
  have hkept : t.prog = s.prog ∧ t.reg .sp = s.reg .sp := by
    refine run_invariant (P := fun u => u.prog = s.prog ∧ u.reg .sp = s.reg .sp) ?_ ⟨rfl, rfl⟩ hrun
    rintro u v ⟨hprog, hreg⟩ hstep
    have hu : NeverNamesSp u.prog := by rwa [hprog]
    exact ⟨(step_prog hstep).trans hprog, (step_reg_sp hu hstep).trans hreg⟩
  exact hkept.2

/-! ### One word of the Program -/

/-- A decode fault is taken alike over any Program. -/
theorem raiseDecode_withProg (d : DecodeFault) (s : State) (p : List InstrWord) :
    raiseDecode d { s with prog := p } = { raiseDecode d s with prog := p } := by
  cases d <;> rfl

/-- Settles O47 (rules R122, R123): both fetches answer the same word, and neither the pre-increment nor the decode fault nor the
handler depends on the Program. -/
theorem stepDependsOnOneProgramWord : Obligations.StepDependsOnOneProgramWord := by
  intro s t p w hw hwp hstep
  have hpre : preIncrement { s with prog := p } = { preIncrement s with prog := p } := rfl
  cases hd : decode w with
  | fault d =>
    rw [hw.step_of_fault hd] at hstep
    cases hstep
    rw [hwp.step_of_fault hd, hpre, raiseDecode_withProg]
  | instr i =>
    rw [hw.step_of_instr hd] at hstep
    rw [hwp.step_of_instr hd, hpre]
    obtain ⟨t', m', hexec, hexecp, hmem⟩ := exec_sameUnder i (preIncrement s) (preIncrement s).mem p fun _ _ _ _ _ => rfl
    rw [hstep] at hexec
    cases hexec
    rwa [hmem rfl] at hexecp

/-! ### A run under a step budget -/

/-- There is an outcome exactly when the run has ended (rule R146). -/
theorem outcome_eq_none_iff (s : State) : outcome s = none ↔ s.engine = .running := by
  unfold outcome
  cases s.engine <;> simp

/-- An ended run stays where it is, and its result is its outcome: it is not exhausted, whatever its budget. -/
theorem exhausted_iff_of_not_running {s : State} (he : s.engine ≠ .running) (n : Nat) (t : State) :
    runUnder n s = .exhausted t ↔ core.run n s = .next t ∧ t.engine = .running := by
  obtain ⟨o, ho⟩ := Option.ne_none_iff_exists'.1 (mt (outcome_eq_none_iff s).1 he)
  have hended : runUnder n s = .ended o := by cases n <;> simp only [runUnder, ho]
  rw [hended, run_of_step_self (step_of_not_running he) n]
  constructor
  · intro h
    cases h
  · rintro ⟨h, ht⟩
    cases h
    exact absurd ht he

theorem runUnder_zero_of_running {s : State} (he : s.engine = .running) : runUnder 0 s = .exhausted s := by
  simp only [runUnder, (outcome_eq_none_iff s).2 he]

/-- A Running engine takes one step of its budget. -/
theorem runUnder_succ_next (n : Nat) {s t : State} (he : s.engine = .running) (h : step s = .next t) :
    runUnder (n + 1) s = runUnder n t := by
  simp only [runUnder, (outcome_eq_none_iff s).2 he, h]

/-- Only a step that answers a next state leads to exhaustion. -/
theorem exists_step_of_exhausted {n : Nat} {s t : State} (he : s.engine = .running) (h : runUnder (n + 1) s = .exhausted t) :
    ∃ u, step s = .next u := by
  cases hs : step s with
  | next u => exact ⟨u, rfl⟩
  | fault f => simp [runUnder, (outcome_eq_none_iff s).2 he, hs] at h
  | refused r => simp [runUnder, (outcome_eq_none_iff s).2 he, hs] at h

/-- Settles O48 (rule R275, decision D24), by induction on the budget: while the engine is Running, both runs take the same
step. -/
theorem exhaustionIsARunningEngine : Obligations.ExhaustionIsARunningEngine := by
  intro n
  induction n with
  | zero =>
    intro s t
    by_cases he : s.engine = .running
    · rw [runUnder_zero_of_running he, run_zero]
      constructor
      · rintro ⟨⟩
        exact ⟨rfl, he⟩
      · rintro ⟨⟨⟩, -⟩
        rfl
    · exact exhausted_iff_of_not_running he 0 t
  | succ n ih =>
    intro s t
    by_cases he : s.engine = .running
    · constructor
      · intro h
        obtain ⟨u, hu⟩ := exists_step_of_exhausted he h
        rw [runUnder_succ_next n he hu] at h
        rw [run_succ_next n hu]
        exact (ih u t).1 h
      · rintro ⟨h, ht⟩
        obtain ⟨u, hu, hrest⟩ := run_succ_cases h
        rw [runUnder_succ_next n he hu]
        exact (ih u t).2 ⟨hrest, ht⟩
    · exact exhausted_iff_of_not_running he (n + 1) t

end Sys2Proof.Machine

/-! ## Ports, trace and outcome (spec 40_fetch_step_cycle sections 7 and 8) -/

namespace Sys2Proof.Machine

/-! ### Read ports -/

theorem regReadPort_num (r : RegId) (s : State) : regReadPort r.num s = some (s.reg r) := by
  simp only [regReadPort, RegId.ofField?_num]

theorem regReadPort_of_noReg {f : RegField} (h : NoReg f) (s : State) : regReadPort f s = none := by
  simp only [regReadPort, (RegId.ofField?_eq_none f).2 h]

/-- The codes of the engine states are distinct (rule R31). -/
theorem portState_eq_code_iff (s : State) (e : EngineState) : portState s = e.code ↔ s.engine = e := by
  unfold portState
  cases s.engine <;> cases e <;> decide

/-- The cause codes are distinct (rule R212). -/
theorem portFaultKind_eq_code_iff (s : State) (k : FaultKind) : portFaultKind s = k.code ↔ s.fault.kind = k := by
  unfold portFaultKind
  cases s.fault.kind <;> cases k <;> decide

/-- Settles O49 (rules R31, R141, R146, R212): each code is that of one engine state or one fault kind. -/
theorem portsShowTheState : Obligations.PortsShowTheState := by
  refine ⟨fun s => ?_, fun s => ?_, fun s r => regReadPort_num r s, fun s f h => regReadPort_of_noReg h s,
    outcome_eq_none_iff⟩
  · have hstate := portState_eq_code_iff s
    refine ⟨hstate .running, hstate .halted, hstate .faulted, ?_⟩
    unfold portState
    cases s.engine <;> decide
  · have hkind := portFaultKind_eq_code_iff s
    refine ⟨hkind .none, hkind .unknownRegister, hkind .outOfBoundsAccess, hkind .divisionByZero,
      hkind .unsupportedOperator, hkind .unsupportedInstruction, hkind .programCounterOutOfRange,
      hkind .arithmeticOverflow, hkind .inexactDivision, ?_, rfl, rfl⟩
    unfold portFaultKind
    cases s.fault.kind <;> decide

/-- Settles O51 (rules R144, R145). -/
theorem outcomeCarriesTheEndOfTheRun : Obligations.OutcomeCarriesTheEndOfTheRun := by
  constructor
  · intro s he
    refine ⟨s.regs, s.mem, by simp only [outcome, he], fun r => ⟨rfl, regReadPort_num r s⟩, fun a ha => ⟨rfl, ?_⟩⟩
    exact if_pos ha
  · intro s he
    simp only [outcome, he]

/-! ### The trace -/

/-- The event of a step at a word that decodes (rule R140). -/
theorem AtWord.traceEvent_eq {s t : State} {w : InstrWord} {i : Instr} (hw : AtWord s w) (hd : decode w = .instr i)
    (hstep : step s = .next t) :
    traceEvent s = if t.engine = .faulted then none else some
      { ip := s.reg .ip, word := w, write := (regWritten i (preIncrement s)).map fun r => (r.num, t.reg r) } := by
  rw [hw.step_of_instr hd] at hstep
  simp only [traceEvent, hw.fetch_eq, hw.front_eq, issueWord, hd, hstep]

/-- Settles O50 (rule R140, decision D22). -/
theorem traceReportsCompletedHandlers : Obligations.TraceReportsCompletedHandlers := by
  intro s t w i hw hd hstep
  rw [hw.traceEvent_eq hd hstep]
  refine ⟨fun ht => if_pos ht, fun ht => ⟨_, if_neg ht, rfl, rfl, Option.map_eq_none_iff, ?_⟩⟩
  intro n v hwrite
  obtain ⟨r, hr, hpair⟩ := Option.map_eq_some_iff.1 hwrite
  obtain ⟨hnum, hvalue⟩ := Prod.mk.inj hpair
  exact ⟨r, hnum, hr, hvalue⟩

/-! ### The store ports -/

/-- A step at a word that decodes drives the access of its handler. -/
theorem AtWord.portDmem_of_instr {s : State} {w : InstrWord} {i : Instr} (hw : AtWord s w) (hd : decode w = .instr i) :
    portDmem s = dmemOf i (preIncrement s) := by
  simp only [portDmem, hw.front_eq, issueWord, hd]

theorem AtWord.portDmem_of_fault {s : State} {w : InstrWord} {d : DecodeFault} (hw : AtWord s w) (hd : decode w = .fault d) :
    portDmem s = none := by
  simp only [portDmem, hw.front_eq, issueWord, hd]

/-- The store ports are idle in a step that fetches no word (log entry 6). -/
theorem ports_idle {s : State} (h : s.engine ≠ .running ∨ s.val .ip < 0 ∨ (s.prog.length : Int) ≤ s.val .ip) :
    portImemAddr s = none ∧ portDmem s = none := by
  cases he : s.engine with
  | halted | faulted => simp [portImemAddr, portDmem, front, he]
  | running =>
    have hout := h.resolve_left fun hne => hne he
    obtain ⟨-, hf⟩ | ⟨-, -, hf⟩ | ⟨-, hnonneg, hlt, -⟩ := fetch_cases s
    · simp [portImemAddr, portDmem, front, he, hf]
    · simp [portImemAddr, portDmem, front, he, hf]
    · omega

/-- An instruction that is neither a LOAD nor a STORE makes no access. -/
theorem dmemOf_eq_none {i : Instr} (s : State) (h : ∀ rs rd off, i ≠ .load rs rd off ∧ i ≠ .store rs rd off) :
    dmemOf i s = none := by
  cases i with
  | load rs rd off => exact absurd rfl (h rs rd off).1
  | store rs rd off => exact absurd rfl (h rs rd off).2
  | add | sub | mul | div | inc | dec | cmp | const | jmp | jz | halt => rfl

/-- Settles O52 (rule R141, decision D20). -/
theorem storePortsCarryTheAccess : Obligations.StorePortsCarryTheAccess := by
  refine ⟨fun s w hw => ?_, fun s h => ports_idle h, fun s w rs rd off hw hd => ?_, fun s w rs rd off hw hd => ?_,
    fun s w hw hother => ?_⟩
  · simp only [portImemAddr, hw.running, hw.fetch_eq]
  · rw [hw.portDmem_of_instr hd]
    exact ⟨fun hb => ⟨_, if_pos hb, toNat_ofInt_cell hb, rfl⟩, fun hb => if_neg hb⟩
  · rw [hw.portDmem_of_instr hd]
    exact ⟨fun hb => ⟨_, if_pos hb, toNat_ofInt_cell hb, rfl, rfl⟩, fun hb => if_neg hb⟩
  · cases hd : decode w with
    | fault d => exact hw.portDmem_of_fault hd
    | instr i =>
      rw [hw.portDmem_of_instr hd]
      exact dmemOf_eq_none _ fun rs rd off => by simpa [hd] using hother rs rd off

end Sys2Proof.Machine
